-- ==== Sys2Proof/Config.lean ====
section
/-!
DEFINITION. The parameters of 00_scope.md R6, each by its name, at the default the rule gives. Every one that R6
and R7 do not derive from another is an argument: the widths of the types of state and instruction (`Widths`),
IMEM_BASE and the sizes of every operation that depends on one (`Sizes`), CEILING_SCOPE of the step. Where none
is given, each stands at its default (log 7, 18).
-/
namespace Sys2Proof

/-- When EXEC_COUNT is cleared (R105): left OPEN by the spec (92_eei_decisions.md D17). -/
inductive CeilingScope where
  /-- cleared at RESET only: the reference behaviour, the default -/
  | session
  /-- cleared at RESET and at each LOAD_BEGIN -/
  | load
  /-- cleared at RESET and at the start of each RUN -/
  | runCommand
  deriving DecidableEq, Repr

namespace Config

/-- XLEN (R6): the width of ACC, DR, a data word and a literal. -/
abbrev xlen : Nat := 32

/-- PC_W (R6): the width of PC. -/
abbrev pcW : Nat := 32

/-- OPND_W (R6): the width of the operand field of an instruction word. -/
abbrev opndW : Nat := 32

/-- The width of the opcode field (30_encoding.md R55), which is no parameter. -/
abbrev opW : Nat := 4

/-- IMEM_BASE (R6): the lowest instruction address. -/
abbrev imemBase : Nat := 0

/-- IMEM_CAP (R6): the number of instruction-memory slots; also the fetch bound (R8). -/
abbrev imemCap : Nat := 128

/-- DMEM_CAP (R6): the number of data-memory words. -/
abbrev dmemCap : Nat := 128

/-- RUNAWAY_CEILING (R6): the RUN cycles after which the block force-halts (R103). -/
abbrev runawayCeiling : Nat := 1000

/-- CEILING_SCOPE (R6, R105) of the machine `core`: the default, Session (log 7). -/
abbrev ceilingScope : CeilingScope := .session

end Config

/-- The widths a block is built with (R6), each an argument of the types of its words, its instructions and its
state. Any widths make a block of the model; the spec's own rules relate them as `Widths.wf` says (log 18). -/
structure Widths where
  /-- XLEN -/
  xlen : Nat := Config.xlen
  /-- PC_W -/
  pcW : Nat := Config.pcW
  /-- OPND_W -/
  opndW : Nat := Config.opndW
  deriving DecidableEq, Repr

/-- WORD_W (R6): the opcode field above the operand field (30_encoding.md R55). -/
abbrev Widths.wordW (W : Widths) : Nat := Config.opW + W.opndW

/-- What the rules ask of the widths: a literal is "already XLEN wide" (30_encoding.md R58), and every target
is a PC value (10_state.md R18). -/
abbrev Widths.wf (W : Widths) : Prop := W.opndW = W.xlen ∧ W.opndW ≤ W.pcW

/-- Every width at the default of R6. -/
abbrev Config.widths : Widths := {}

/-- INT32_MIN (R9) for patterns of a width: the lowest value read as a signed number; -2147483648 at 32. -/
abbrev minInt (n : Nat) : Int := -2 ^ (n - 1)

/-- INT32_MAX (R9) for patterns of a width: the highest such value; 2147483647 at 32. -/
abbrev maxInt (n : Nat) : Int := 2 ^ (n - 1) - 1

/-- The sizes a block is built with (R6), which sets no upper limit to any of them (log 19). The parameters that R6 and R7 derive from them are the definitions
below. -/
structure Sizes where
  /-- IMEM_BASE -/
  imemBase : Nat := Config.imemBase
  /-- IMEM_CAP -/
  imemCap : Nat := Config.imemCap
  /-- DMEM_CAP -/
  dmemCap : Nat := Config.dmemCap
  /-- RUNAWAY_CEILING -/
  runawayCeiling : Nat := Config.runawayCeiling
  deriving DecidableEq, Repr

/-- DMEM_BASE (R6), the lowest data address: IMEM_BASE + IMEM_CAP (R7). -/
abbrev Sizes.dmemBase (sz : Sizes) : Nat := sz.imemBase + sz.imemCap

/-- DMEM_TOP (R6), the highest data address: DMEM_BASE + DMEM_CAP - 1. -/
abbrev Sizes.dmemTop (sz : Sizes) : Nat := sz.dmemBase + sz.dmemCap - 1

/-- SYMTAB_CAP (R6): IMEM_CAP. -/
abbrev Sizes.symtabCap (sz : Sizes) : Nat := sz.imemCap

/-- Every size at the default of R6. -/
abbrev Config.sizes : Sizes := {}

end Sys2Proof
end

