-- ==== Sys2Proof/Word.lean ====
section
/-!
DEFINITION. The word types of the block (00_scope.md R9, 10_state.md R13, R18, 30_encoding.md R55, R60), for the
widths `W` of a block, by default those of 00_scope.md R6.
-/
namespace Sys2Proof

/-- A register or a data word: an XLEN-bit pattern, read as two's complement where it is read as a number
(R9, R13). -/
abbrev Word (W : Widths := Config.widths) := BitVec W.xlen

/-- PC: a PC_W-bit pattern, read as a signed number (R18). -/
abbrev Target (W : Widths := Config.widths) := BitVec W.pcW

/-- An instruction word: WORD_W bits (R55). -/
abbrev IWord (W : Widths := Config.widths) := BitVec W.wordW

/-- The opcode field of an instruction word (R55). -/
abbrev OpCode := BitVec Config.opW

/-- The operand field of an instruction word: OPND_W bits (R55). -/
abbrev Opnd (W : Widths := Config.widths) := BitVec W.opndW

/-- A symbol id: an operand field compared by equality only (R60). DESIGN CHOICE (log 18): at an OPND_W other than
32 it has OPND_W bits, as R60's `sym = OPND` reads, where 10_state.md R28 gives SYM_ID 32. -/
abbrev SymId (W : Widths := Config.widths) := Opnd W

end Sys2Proof
end

