-- ==== Sys2Proof/Syntax.lean ====
section
/-!
DEFINITION. The instructions: one constructor per row of spec/opcode_table.json (30_encoding.md R61),
carrying only the operands the row gives (R56), as the patterns in its operand field.
-/
namespace Sys2Proof

/-- An instruction of a block of widths `W` as the decoder delivers it (30_encoding.md R61, R64). -/
inductive Instr (W : Widths := Config.widths) where
  /-- OP 0, the empty slot (R62, R93) -/
  | empty
  /-- OP 1, DEC sym: declare or clear a variable (R78) -/
  | dec (sym : SymId W)
  /-- OP 2, LDI n: load a literal (R79) -/
  | ldi (n : Opnd W)
  /-- OP 3, LDA sym: load a variable (R80) -/
  | lda (sym : SymId W)
  /-- OP 4, STR sym: store into a variable (R81) -/
  | str (sym : SymId W)
  /-- OP 5, XCH: exchange ACC and DR (R82) -/
  | xch
  /-- OP 6, ADD (R86) -/
  | add
  /-- OP 7, SUB (R87) -/
  | sub
  /-- OP 8, JMP addr (R89) -/
  | jmp (addr : Opnd W)
  /-- OP 9, JZS addr: jump if Z (R90) -/
  | jzs (addr : Opnd W)
  /-- OP A, JVS addr: jump if V (R91) -/
  | jvs (addr : Opnd W)
  /-- OP B, HLT (R92) -/
  | hlt
  /-- OP C to F, reserved, executed as the empty slot (R63); `op` is the opcode met (log 6) -/
  | reserved (op : OpCode)
  deriving DecidableEq, Repr

end Sys2Proof
end

