-- ==== Sys2Proof/Decode.lean ====
section
/-!
DEFINITION. The instruction word, the decoder and the encoder (30_encoding.md sections 1 to 5), and the
opcode table as rows of mask and match (R61).
-/
namespace Sys2Proof

variable {W : Widths}

/-- OP = `w[35:32]` (R55). -/
def opField (w : IWord W) : OpCode := w.extractLsb' W.opndW Config.opW

/-- OPND = `w[31:0]` (R55). -/
def opndField (w : IWord W) : Opnd W := w.extractLsb' 0 W.opndW

/-- The word with the given OP and OPND (R55). -/
def mkWord (op : OpCode) (opnd : Opnd W) : IWord W := op ++ opnd

/-- The decoder (R64): total on all words, reading OP alone to select the instruction. OPND is ignored
in format N (R57). The last arm is OP = 0xC to 0xF (R63). -/
def decode (w : IWord W) : Instr W :=
  match (opField w).toNat with
  | 0 => .empty
  | 1 => .dec (opndField w)
  | 2 => .ldi (opndField w)
  | 3 => .lda (opndField w)
  | 4 => .str (opndField w)
  | 5 => .xch
  | 6 => .add
  | 7 => .sub
  | 8 => .jmp (opndField w)
  | 9 => .jzs (opndField w)
  | 10 => .jvs (opndField w)
  | 11 => .hlt
  | _ => .reserved (opField w)

/-- The encoder: the word a conforming loader writes (R61), with OPND = 0 in format N (R57). A
conforming loader writes no reserved word (R63); its word here has OPND = 0 as well. -/
def encode : Instr W → IWord W
  | .empty => mkWord 0x0 0
  | .dec sym => mkWord 0x1 sym
  | .ldi n => mkWord 0x2 n
  | .lda sym => mkWord 0x3 sym
  | .str sym => mkWord 0x4 sym
  | .xch => mkWord 0x5 0
  | .add => mkWord 0x6 0
  | .sub => mkWord 0x7 0
  | .jmp addr => mkWord 0x8 addr
  | .jzs addr => mkWord 0x9 addr
  | .jvs addr => mkWord 0xA addr
  | .hlt => mkWord 0xB 0
  | .reserved op => mkWord op 0

/-- The symbol id an instruction names: formats S only (R56). -/
def symbolOf : Instr W → Option (SymId W)
  | .dec sym | .lda sym | .str sym => some sym
  | .empty | .ldi _ | .xch | .add | .sub | .jmp _ | .jzs _ | .jvs _ | .hlt | .reserved _ => none

/-- The mask by which a word selects an instruction's row of the opcode table (R61): the opcode field, or its
two high bits for the reserved row. -/
def rowMask : Instr W → IWord W
  | .reserved _ => mkWord 0xC 0
  | .empty | .dec _ | .ldi _ | .lda _ | .str _ | .xch | .add | .sub
  | .jmp _ | .jzs _ | .jvs _ | .hlt => mkWord 0xF 0

/-- The match value of an instruction's row of the opcode table (R61): OP above an operand field
of zeros. -/
def rowMatch : Instr W → IWord W
  | .empty => mkWord 0x0 0
  | .dec _ => mkWord 0x1 0
  | .ldi _ => mkWord 0x2 0
  | .lda _ => mkWord 0x3 0
  | .str _ => mkWord 0x4 0
  | .xch => mkWord 0x5 0
  | .add => mkWord 0x6 0
  | .sub => mkWord 0x7 0
  | .jmp _ => mkWord 0x8 0
  | .jzs _ => mkWord 0x9 0
  | .jvs _ => mkWord 0xA 0
  | .hlt => mkWord 0xB 0
  | .reserved _ => mkWord 0xC 0

/-- Whether a word selects an instruction's row (R61). -/
def inRowOf (i : Instr W) (w : IWord W) : Bool := w &&& rowMask i == rowMatch i

/-- The instruction in a word numbered as spec/opcode_table.json numbers it: a word of more than
WORD_W bits is no instruction word (R55). -/
def decodeTableWord (nbits w : Nat) : Option Instr :=
  if w % 2 ^ nbits < 2 ^ Config.widths.wordW then some (decode (BitVec.ofNat Config.widths.wordW (w % 2 ^ nbits))) else none

end Sys2Proof
end

