-- ==== Sys2Proof/Machine/State.lean ====
section
/-!
DEFINITION. The state of the block (10_state.md), the commands of the host (43_sequencer.md R94) and the
reasons a step can stop.
-/
namespace Sys2Proof.Machine

/-- The status a loader reports at the end of a load (70_reset_and_hazards.md R124). -/
inductive LoadStatus where
  | ok
  | parseError
  deriving DecidableEq, Repr

/-- The commands of the block's interface (R94). An address of IMEM_WRITE is any integer (R124 says what
one outside the instruction range does). -/
inductive Command (W : Widths := Config.widths) where
  /-- power-on reset (R122) -/
  | reset
  /-- starts a program load (R123) -/
  | loadBegin
  /-- writes a word into a slot during a load (R124) -/
  | imemWrite (a : Int) (w : IWord W)
  /-- ends a load (R124) -/
  | loadEnd (status : LoadStatus)
  /-- one cycle (R100) -/
  | step
  /-- cycles until a stop condition (R101) -/
  | run
  deriving DecidableEq, Repr

/-- What the host does at one step of the model (log 2). -/
inductive HostInput (W : Widths := Config.widths) where
  /-- it issues nothing -/
  | quiet
  /-- it issues the command now, whatever BUSY is -/
  | issue (c : Command W)
  /-- it waits until BUSY is false (R95) and issues the command then -/
  | await (c : Command W)
  deriving DecidableEq, Repr

/-- A memory: the addresses that hold something else than 0, with what they hold. Every unlisted address
reads as 0: the empty word in IMEM (10_state.md R29, R36), the word 0 in DMEM (R30, R36). -/
abbrev Memory (w : Nat) := List (Nat × BitVec w)

/-- The canonical form of a memory: addresses strictly rising, no entry equal to what an unlisted
address reads as. -/
abbrev Memory.wf {w : Nat} (m : Memory w) : Prop :=
  m.Pairwise (fun p q => p.1 < q.1) ∧ ∀ p ∈ m, p.2 ≠ 0

/-- Everything the spec gives a block of widths `W` (10_state.md), and the host's inputs not yet taken (log 2). -/
structure State (W : Widths := Config.widths) where
  /-- ACC (R13, R14) -/
  acc : Word W
  /-- DR (R13, R15) -/
  dr : Word W
  /-- Z, the zero flag (R22) -/
  z : Bool
  /-- V, the overflow flag (R23) -/
  v : Bool
  /-- PC, read as a signed number (R18) -/
  pc : Target W
  /-- H: true in the state Halted, false in Running (R25, R99) -/
  halted : Bool
  /-- IMEM, by slot address, IMEM_BASE on (R29) -/
  imem : Memory W.wordW
  /-- DMEM, by data address, DMEM_BASE to DMEM_TOP (R30) -/
  dmem : Memory W.xlen
  /-- SYMTAB: entry i maps SYM_ID[i] to data address DMEM_BASE + i; SYM_COUNT is its length (R31); an id has
OPND_W bits, the 32 of R28 at the default (log 18) -/
  symtab : List (SymId W)
  /-- EXEC_COUNT (R26) -/
  execCount : BitVec 32
  /-- BUSY: a RUN is in progress (R27) -/
  busy : Bool
  /-- a load is in progress: between LOAD_BEGIN and LOAD_END (R95) -/
  loading : Bool
  /-- the RUNAWAY output (R106): asserted from a force-halt until the next accepted command (log 4) -/
  runaway : Bool
  /-- the MODEL's own field: what the host does at the coming steps, the nearest first (log 2) -/
  host : List (HostInput W)
  deriving DecidableEq, Repr

/-- The state after power-on reset (R36, R122), with no input of the host pending. -/
def State.initial {W : Widths} : State W where
  acc := 0
  dr := 0
  z := false
  v := false
  pc := 0
  halted := false
  imem := []
  dmem := []
  symtab := []
  execCount := 0
  busy := false
  loading := false
  runaway := false
  host := []

/-- The machine right after reset: the state after power-on reset at the default widths. -/
def State.reset : State := State.initial

/-- The block has no fault: "No instruction and no command raises an exception or trap"
(60_exceptions.md R109; log 15). -/
inductive Fault
  deriving DecidableEq, Repr

/-- The reasons a step is refused. -/
inductive Refusal (W : Widths := Config.widths) where
  /-- raised by an arm of exec whose instruction has no meaning yet; safe. No arm raises it -/
  | notModelled (mnemonic : String)
  /-- raised by a command the block does not accept (R95; 93_implementation_defined.md part 2, 13);
  safe (log 3) -/
  | commandNotAccepted (c : Command W)
  deriving DecidableEq, Repr

/-- The outcome of a step of a block of widths `W`. -/
abbrev Outcome (W : Widths := Config.widths) := Host.Outcome (State W) Fault (Refusal W)

end Sys2Proof.Machine
end

