-- ==== Sys2Proof/Machine/Ops.lean ====
section
/-!
DEFINITION. The named operations over the state's fields, the two memories and the program counter
(00_scope.md R9 to R11, 20_memory.md R40, 43_sequencer.md R97, R98). The block has no exception to take
and none to return from (60_exceptions.md R109, R113, R114), so no operation of that kind stands here.
-/
namespace Sys2Proof.Machine

variable {W : Widths}

/-! One writer per field. -/

def State.setAcc (s : State W) (x : Word W) : State W := { s with acc := x }
def State.setDr (s : State W) (x : Word W) : State W := { s with dr := x }
def State.setZ (s : State W) (x : Bool) : State W := { s with z := x }
def State.setV (s : State W) (x : Bool) : State W := { s with v := x }
def State.setPc (s : State W) (x : Target W) : State W := { s with pc := x }
def State.setHalted (s : State W) (x : Bool) : State W := { s with halted := x }
def State.setImem (s : State W) (x : Memory W.wordW) : State W := { s with imem := x }
def State.setDmem (s : State W) (x : Memory W.xlen) : State W := { s with dmem := x }
def State.setSymtab (s : State W) (x : List (SymId W)) : State W := { s with symtab := x }
def State.setExecCount (s : State W) (x : BitVec 32) : State W := { s with execCount := x }
def State.setBusy (s : State W) (x : Bool) : State W := { s with busy := x }
def State.setLoading (s : State W) (x : Bool) : State W := { s with loading := x }
def State.setRunaway (s : State W) (x : Bool) : State W := { s with runaway := x }
def State.setHost (s : State W) (x : List (HostInput W)) : State W := { s with host := x }

/-- `wrap_N(i)`: the N-bit pattern whose unsigned value is `i mod 2^N` (R9). -/
def wrap {n : Nat} (i : Int) : BitVec n := BitVec.ofInt n i

/-- The cell at an address; an unlisted address reads as 0 (10_state.md R29, R30). -/
def Memory.read {w : Nat} : Memory w → Nat → BitVec w
  | [], _ => 0
  | (b, y) :: m, a => if a = b then y else if a < b then 0 else Memory.read m a

/-- The memory with a cell replaced, in canonical form: writing 0 removes the entry. -/
def Memory.write {w : Nat} : Memory w → Nat → BitVec w → Memory w
  | [], a, x => if x = 0 then [] else [(a, x)]
  | (b, y) :: m, a, x =>
    if a < b then (if x = 0 then (b, y) :: m else (a, x) :: (b, y) :: m)
    else if a = b then (if x = 0 then m else (a, x) :: m)
    else (b, y) :: Memory.write m a x

/-! Ranges of addresses. `sz` gives the sizes, by default those of 00_scope.md R6. -/

/-- `InDataRange(a)` (R10). -/
def inDataRange (a : Nat) (sz : Sizes := Config.sizes) : Bool := decide (sz.dmemBase ≤ a ∧ a ≤ sz.dmemTop)

/-- Whether an integer is an instruction address: in [IMEM_BASE, IMEM_BASE + IMEM_CAP - 1] (00_scope.md R7). -/
def inInstrRange (a : Int) (sz : Sizes := Config.sizes) : Bool :=
  decide ((sz.imemBase : Int) ≤ a ∧ a ≤ (sz.imemBase + sz.imemCap : Int) - 1)

/-- `MemRead(a, 32)` (20_memory.md R40). -/
def memRead (a : Nat) (s : State W) : Word W := Memory.read s.dmem a

/-- `MemWrite(a, 32, v)` (20_memory.md R40). -/
def memWrite (a : Nat) (x : Word W) (s : State W) : State W := s.setDmem (Memory.write s.dmem a x)

/-- The load of LDA: ACC gets the word at `a`, or nothing happens when `a` is no data address
(20_memory.md R48). -/
def loadAccIfInRange (a : Nat) (s : State W) (sz : Sizes := Config.sizes) : State W :=
  if inDataRange a sz then s.setAcc (memRead a s) else s

/-- The store of DEC and STR: nothing happens when `a` is no data address (20_memory.md R48). -/
def storeIfInRange (a : Nat) (x : Word W) (s : State W) (sz : Sizes := Config.sizes) : State W :=
  if inDataRange a sz then memWrite a x s else s

/-- Whether a PC value is in the fetch range, which is the instruction range (R10; 43_sequencer.md R97). -/
def inFetchRange (pc : Target W) (sz : Sizes := Config.sizes) : Bool := inInstrRange pc.toInt sz

/-- `IMemRead(PC)` (43_sequencer.md R97): the slot PC names, or the empty word outside the fetch range. -/
def fetch (s : State W) (sz : Sizes := Config.sizes) : IWord W :=
  if inFetchRange s.pc sz then Memory.read s.imem s.pc.toInt.toNat else 0

/-- PC := wrap_PC_W(signed(PC) + 1) (43_sequencer.md R98). -/
def advancePc (s : State W) : State W := s.setPc (wrap (s.pc.toInt + 1))

/-- The end of a cycle: an arm leaves a state and its Boolean `advance` (00_scope.md R11), and the
sequencer adds one to PC when it is true (43_sequencer.md R98). -/
def retire (s : State W) (advance : Bool) : Outcome W := .next (if advance then advancePc s else s)

end Sys2Proof.Machine
end

