-- ==== Sys2Proof/Machine/Flags.lean ====
section
/-!
DEFINITION. The arithmetic law of ADD and SUB and the flags it sets (41_arithmetic.md R83).
-/
namespace Sys2Proof.Machine

variable {W : Widths}

/-- The exact sum signed(ACC) + signed(DR) (R86). -/
def exactSum (s : State W) : Int := s.acc.toInt + s.dr.toInt

/-- The exact difference signed(ACC) - signed(DR), in this order (R87). -/
def exactDiff (s : State W) : Int := s.acc.toInt - s.dr.toInt

/-- V: the exact result lies outside [INT32_MIN, INT32_MAX] (R83), the range of the `n` bits of a register. -/
def overflows (r : Int) (n : Nat := Config.widths.xlen) : Bool := decide (r < minInt n ∨ r > maxInt n)

/-- Store an exact result (R83): V from the exact result, ACC its low XLEN bits, Z from the stored value. -/
def setResult (r : Int) (s : State W) : State W :=
  let stored : Word W := wrap r
  ((s.setV (overflows r W.xlen)).setAcc stored).setZ (decide (stored = 0))

end Sys2Proof.Machine
end

