-- ==== Sys2Proof/Machine/Arithmetic.lean ====
section
/-!
DEFINITION. ADD and SUB (41_arithmetic.md).
-/
namespace Sys2Proof.Machine

variable {W : Widths}

/-- ADD (R86). -/
def execAdd (s : State W) : Outcome W := retire (setResult (exactSum s) s) true

/-- SUB (R87). -/
def execSub (s : State W) : Outcome W := retire (setResult (exactDiff s) s) true

end Sys2Proof.Machine
end

