-- ==== Sys2Proof/Machine/Operands.lean ====
section
/-!
DEFINITION. The operand forms (30_encoding.md R56 to R60): the literal, the target and the symbol.
-/
namespace Sys2Proof.Machine

variable {W : Widths}

/-- The literal of format I, `n = signed(OPND)` (30_encoding.md R58), as the pattern of a register: OPND itself,
which is "already XLEN wide". For other widths it is wrap_XLEN(n) (DEDUCED, log 18). -/
def literal (n : Opnd W) : Word W := wrap n.toInt

/-- The target of format A, `addr = signed(OPND)` (30_encoding.md R59), as a value of PC: OPND itself where PC_W is
OPND_W. For other widths it is wrap_PC_W(addr), which is `addr` where PC is at least as wide (DEDUCED, log 18). -/
def target (addr : Opnd W) : Target W := wrap addr.toInt

/-- `Resolve(sym)` (20_memory.md R44): the data address of a symbol, allocating the next one to a symbol
seen for the first time. It reads and writes SYMTAB only. A table already holding SYMTAB_CAP entries,
which no run reaches (R47), grows on and gives an address above DMEM_TOP (log 5). -/
def resolve (sym : SymId W) (s : State W) (sz : Sizes := Config.sizes) : Nat × State W :=
  match s.symtab.idxOf? sym with
  | some i => (sz.dmemBase + i, s)
  | none => (sz.dmemBase + s.symtab.length, s.setSymtab (s.symtab ++ [sym]))

end Sys2Proof.Machine
end

