-- ==== Sys2Proof/Machine/Control.lean ====
section
/-!
DEFINITION. JMP, JZS, JVS, HLT, the empty slot and the reserved opcodes (42_control_transfer.md).
-/
namespace Sys2Proof.Machine

variable {W : Widths}

/-- A jump taken or not: a taken one writes PC and does not advance (R88, R90, R91). -/
def jumpIf (taken : Bool) (addr : Opnd W) (s : State W) : Outcome W :=
  if taken then retire (s.setPc (target addr)) false else retire s true

/-- JMP addr (R89). -/
def execJmp (addr : Opnd W) (s : State W) : Outcome W := jumpIf true addr s

/-- JZS addr (R90). -/
def execJzs (addr : Opnd W) (s : State W) : Outcome W := jumpIf s.z addr s

/-- JVS addr (R91). -/
def execJvs (addr : Opnd W) (s : State W) : Outcome W := jumpIf s.v addr s

/-- HLT (R92). -/
def execHlt (s : State W) : Outcome W := retire (s.setHalted true) false

/-- The empty slot (R93). -/
def execEmpty (s : State W) : Outcome W := retire s true

/-- A reserved opcode: as the empty slot (30_encoding.md R63, R93). -/
def execReserved (_op : OpCode) (s : State W) : Outcome W := retire s true

end Sys2Proof.Machine
end

