-- ==== Sys2Proof/Machine/DataTransfer.lean ====
section
/-!
DEFINITION. DEC, LDI, LDA, STR, XCH (40_data_transfer.md). `sz` gives the sizes, by default those of R6.
-/
namespace Sys2Proof.Machine

variable {W : Widths}

/-- DEC sym (R78). -/
def execDec (sym : SymId W) (s : State W) (sz : Sizes := Config.sizes) : Outcome W :=
  let r := resolve sym s sz
  retire (storeIfInRange r.1 0 r.2 sz) true

/-- LDI n (R79). -/
def execLdi (n : Opnd W) (s : State W) : Outcome W := retire (s.setAcc (literal n)) true

/-- LDA sym (R80). -/
def execLda (sym : SymId W) (s : State W) (sz : Sizes := Config.sizes) : Outcome W :=
  let r := resolve sym s sz
  retire (loadAccIfInRange r.1 r.2 sz) true

/-- STR sym (R81). -/
def execStr (sym : SymId W) (s : State W) (sz : Sizes := Config.sizes) : Outcome W :=
  let r := resolve sym s sz
  retire (storeIfInRange r.1 r.2.acc r.2 sz) true

/-- XCH (R82). -/
def execXch (s : State W) : Outcome W := retire ((s.setAcc s.dr).setDr s.acc) true

end Sys2Proof.Machine
end

