-- ==== Sys2Proof/Machine/Dispatch.lean ====
section
/-!
DEFINITION. Dispatch: exactly one arm per instruction (30_encoding.md R65). The outcome holds the state after
the arm and after the sequencer's advance (43_sequencer.md R96).
-/
namespace Sys2Proof.Machine

def exec (i : Instr) (s : State) : Host.Outcome State Fault Refusal :=
  match i with
  | .empty => Sys2Proof.Machine.execEmpty s
  | .dec sym => Sys2Proof.Machine.execDec sym s
  | .ldi n => Sys2Proof.Machine.execLdi n s
  | .lda sym => Sys2Proof.Machine.execLda sym s
  | .str sym => Sys2Proof.Machine.execStr sym s
  | .xch => Sys2Proof.Machine.execXch s
  | .add => Sys2Proof.Machine.execAdd s
  | .sub => Sys2Proof.Machine.execSub s
  | .jmp addr => Sys2Proof.Machine.execJmp addr s
  | .jzs addr => Sys2Proof.Machine.execJzs addr s
  | .jvs addr => Sys2Proof.Machine.execJvs addr s
  | .hlt => Sys2Proof.Machine.execHlt s
  | .reserved op => Sys2Proof.Machine.execReserved op s

end Sys2Proof.Machine
end

