-- ==== Sys2Proof/Machine/Sequencer.lean ====
section
/-!
DEFINITION. The sequencer: the cycle, the commands and the halt state machine (43_sequencer.md,
70_reset_and_hazards.md). One step of the model is one accepted command, or one pass of a RUN's loop, or
nothing while the block waits (log 1). `W` gives the widths and `sz` the
sizes, by default those of 00_scope.md R6.
-/
namespace Sys2Proof.Machine

variable {W : Widths}

/-- exec for a block of any widths and sizes: at the defaults the two are one (`execAt_eq_exec`). -/
def execAt (i : Instr W) (s : State W) (sz : Sizes := Config.sizes) : Outcome W :=
  match i with
  | .empty => execEmpty s
  | .dec sym => execDec sym s sz
  | .ldi n => execLdi n s
  | .lda sym => execLda sym s sz
  | .str sym => execStr sym s sz
  | .xch => execXch s
  | .add => execAdd s
  | .sub => execSub s
  | .jmp addr => execJmp addr s
  | .jzs addr => execJzs addr s
  | .jvs addr => execJvs addr s
  | .hlt => execHlt s
  | .reserved op => execReserved op s

/-- One cycle: fetch, decode, execute, advance (R96). -/
def cycle (s : State W) (sz : Sizes := Config.sizes) : Outcome W := execAt (decode (fetch s sz)) s sz

/-- Why a RUN stops before a cycle (R101). -/
inductive RunStop where
  /-- stop 1: H is true -/
  | halted
  /-- stop 2: PC is outside the fetch range -/
  | fetchBound
  /-- stop 3: EXEC_COUNT has reached RUNAWAY_CEILING -/
  | runaway
  deriving DecidableEq, Repr

/-- The three tests of a RUN, in their order (R101, R104). DESIGN CHOICE (log 19): the spec sets no upper limit to
RUNAWAY_CEILING, and one of 2^32 or more is never reached, since EXEC_COUNT has 32 bits (R26). -/
def runStop (s : State W) (sz : Sizes := Config.sizes) : Option RunStop :=
  if s.halted then some .halted
  else if !inFetchRange s.pc sz then some .fetchBound
  else if sz.runawayCeiling ≤ s.execCount.toNat then some .runaway
  else none

/-- The end of a cycle of a RUN: EXEC_COUNT grows by one (R102). DESIGN CHOICE (log 19): under a RUNAWAY_CEILING of
2^32 or more, where R26's "it never wraps" does not follow, the 32-bit count wraps. -/
def countCycle : Outcome W → Outcome W
  | .next t => .next (t.setExecCount (t.execCount + 1))
  | .fault f => .fault f
  | .refused r => .refused r

/-- One pass of the loop of a RUN (R101): a stop, with the force-halt when it is the runaway ceiling
(R103, R106), or a counted cycle. -/
def runTick (s : State W) (sz : Sizes := Config.sizes) : Outcome W :=
  match runStop s sz with
  | some .halted | some .fetchBound => .next (s.setBusy false)
  | some .runaway => .next (((s.setHalted true).setRunaway true).setBusy false)
  | none => countCycle (cycle s sz)

/-- RESET (R122): every piece of state to its power-on value. What the host still has to issue is the
host's, and stays. -/
def powerOn (s : State W) : State W := (State.initial : State W).setHost s.host

/-- LOAD_BEGIN (R123): a fresh machine; EXEC_COUNT is cleared only under the scope Load (R105). -/
def loadBegin (scope : CeilingScope) (s : State W) : State W :=
  let fresh := (powerOn s).setLoading true
  match scope with
  | .load => fresh
  | .session | .runCommand => fresh.setExecCount s.execCount

/-- IMEM_WRITE(a, w) (R124): slot `a` gets `w` when `a` is an instruction address. -/
def imemWrite (a : Int) (w : IWord W) (s : State W) (sz : Sizes := Config.sizes) : State W :=
  if inInstrRange a sz then s.setImem (Memory.write s.imem a.toNat w) else s

/-- STEP (R100): nothing when halted, one cycle otherwise. -/
def stepCommand (s : State W) (sz : Sizes := Config.sizes) : Outcome W := if s.halted then .next s else cycle s sz

/-- The start of a RUN (R101): BUSY is set; EXEC_COUNT is cleared only under the scope RunCommand (R105). -/
def startRun (scope : CeilingScope) (s : State W) : State W :=
  match scope with
  | .runCommand => (s.setExecCount 0).setBusy true
  | .session | .load => s.setBusy true

/-- Which commands the block accepts (R95, R124): RESET always; IMEM_WRITE and LOAD_END only during a
load; the others only when no RUN and no load is in progress. -/
def accepts (s : State W) : Command W → Bool
  | .reset => true
  | .imemWrite _ _ | .loadEnd _ => !s.busy && s.loading
  | .loadBegin | .step | .run => !s.busy && !s.loading

/-- What an accepted command does. The status of LOAD_END changes no state (R124). -/
def perform (scope : CeilingScope) (c : Command W) (s : State W) (sz : Sizes := Config.sizes) : Outcome W :=
  match c with
  | .reset => .next (powerOn s)
  | .loadBegin => .next (loadBegin scope s)
  | .imemWrite a w => .next (imemWrite a w s sz)
  | .loadEnd _ => .next (s.setLoading false)
  | .step => stepCommand s sz
  | .run => .next (startRun scope s)

/-- A command of the host: performed when the block accepts it, with the RUNAWAY output of an earlier
command gone (log 4); refused by name otherwise (log 3). -/
def issue (scope : CeilingScope) (c : Command W) (s : State W) (sz : Sizes := Config.sizes) : Outcome W :=
  if accepts s c then perform scope c (s.setRunaway false) sz else .refused (.commandNotAccepted c)

/-- The block with no command at hand: a RUN in progress goes on, an idle block waits. -/
def proceed (s : State W) (sz : Sizes := Config.sizes) : Outcome W := if s.busy then runTick s sz else .next s

/-- The command the block is given at this step, if any: one issued now, or one awaited while BUSY is
false (log 2). -/
def commandTaken (s : State W) : Option (Command W) :=
  match s.host with
  | .issue c :: _ => some c
  | .await c :: _ => if s.busy then none else some c
  | .quiet :: _ | [] => none

/-- The inputs of the host left for the coming steps: an awaited command stays while BUSY is true. -/
def hostAfter (s : State W) : List (HostInput W) :=
  match s.host with
  | .await _ :: rest => if s.busy then s.host else rest
  | .issue _ :: rest | .quiet :: rest => rest
  | [] => []

/-- One step of the model for a value of CEILING_SCOPE (R105) and for any widths and sizes (log 1, 2, 7,
18). -/
def stepWith (scope : CeilingScope) (s : State W) (sz : Sizes := Config.sizes) : Outcome W :=
  match commandTaken s with
  | some c => issue scope c (s.setHost (hostAfter s)) sz
  | none => proceed (s.setHost (hostAfter s)) sz

/-- A number of steps, ending at the first one that does not answer a next state. -/
def stepsWith (scope : CeilingScope) (n : Nat) (s : State W) (sz : Sizes := Config.sizes) : Outcome W :=
  match n with
  | 0 => .next s
  | n + 1 =>
    match stepWith scope s sz with
    | .next t => stepsWith scope n t sz
    | .fault f => .fault f
    | .refused r => .refused r

/-- The loop of a RUN (R101), with a bound on its passes. -/
def runLoop (n : Nat) (s : State W) (sz : Sizes := Config.sizes) : Outcome W :=
  match n with
  | 0 => .next s
  | n + 1 =>
    if s.busy then
      match runTick s sz with
      | .next t => runLoop n t sz
      | .fault f => .fault f
      | .refused r => .refused r
    else .next s

/-- RUN as the host sees it, one transaction (R95, R101; the source's `runToHalt()`). A RUN makes at most
RUNAWAY_CEILING cycles (R107) and one stopping pass; with a ceiling of 2^32 or more the bound on passes may end
it with BUSY still true (log 19). -/
def runToHalt (scope : CeilingScope) (s : State W) (sz : Sizes := Config.sizes) : Outcome W :=
  runLoop (sz.runawayCeiling + 1) (startRun scope (s.setRunaway false)) sz

end Sys2Proof.Machine
end

