-- ==== Sys2Proof/Machine/Step.lean ====
section
/-!
DEFINITION. The step of the machine at the default CEILING_SCOPE, and the placing of an instruction to run next.
-/
namespace Sys2Proof.Machine

/-- One step at the default CEILING_SCOPE, Session (00_scope.md R6; log 7). -/
def step (s : State) : Host.Outcome State Fault Refusal := stepWith Config.ceilingScope s

/-- The instruction of a table word in the slot PC names, with a STEP to run it as the next input of the
host (log 9). The block takes a STEP when it is Running, with no RUN and no load in progress (R95, R100);
a PC outside the fetch range names no slot, and slot 0 is taken. -/
def State.withFetchWord (s : State) (nbits w : Nat) : State :=
  let pc := if inFetchRange s.pc then s.pc else 0
  { s with
    pc := pc
    imem := Memory.write s.imem pc.toInt.toNat (BitVec.ofNat Config.widths.wordW (w % 2 ^ nbits))
    halted := false
    busy := false
    loading := false
    host := .issue .step :: s.host }

end Sys2Proof.Machine
end

