-- ==== Sys2Proof/Machine/Conditions.lean ====
section
/-!
DEFINITION. The conditions handled in place of exceptions, by the spec's names and codes (60_exceptions.md R110).
The block stores no code anywhere: these are functions that say which condition a cycle, or a pass of a
RUN's loop, meets. UnknownOpcode and ParseError are met by the loader (Loader.lean).
-/
namespace Sys2Proof.Machine

variable {W : Widths}

/-- The conditions of R110. -/
inductive Condition where
  | unknownOpcode
  | parseError
  | emptySlot
  | reservedOpcode
  | fetchOutOfRange
  | outOfRangeAddress
  | overflow
  | runawayProgram
  deriving DecidableEq, Repr

/-- The spec's codes (R110). -/
def Condition.code : Condition → Nat
  | .unknownOpcode => 1
  | .parseError => 2
  | .emptySlot => 3
  | .reservedOpcode => 4
  | .fetchOutOfRange => 5
  | .outOfRangeAddress => 6
  | .overflow => 7
  | .runawayProgram => 8

/-- OutOfRangeAddress: the symbol an instruction names resolves outside the data range. -/
def resolvesOutOfRange (i : Instr W) (s : State W) (sz : Sizes := Config.sizes) : Bool :=
  match symbolOf i with
  | some sym => !inDataRange (resolve sym s sz).1 sz
  | none => false

/-- Overflow: the exact result of an ADD or a SUB is out of range. -/
def arithmeticOverflows (i : Instr W) (s : State W) : Bool :=
  match i with
  | .add => overflows (exactSum s) W.xlen
  | .sub => overflows (exactDiff s) W.xlen
  | .empty | .dec _ | .ldi _ | .lda _ | .str _ | .xch | .jmp _ | .jzs _ | .jvs _ | .hlt | .reserved _ => false

/-- Whether a condition is met by the cycle that runs in a state (the column "cause" of R110). -/
def meetsInCycle (s : State W) (c : Condition) (sz : Sizes := Config.sizes) : Bool :=
  match c with
  | .emptySlot => inFetchRange s.pc sz && decode (fetch s sz) == .empty
  | .reservedOpcode => inFetchRange s.pc sz && decode (fetch s sz) == .reserved (opField (fetch s sz))
  | .fetchOutOfRange => !inFetchRange s.pc sz
  | .outOfRangeAddress => resolvesOutOfRange (decode (fetch s sz)) s sz
  | .overflow => arithmeticOverflows (decode (fetch s sz)) s
  | .unknownOpcode | .parseError | .runawayProgram => false

/-- Whether a condition stops the RUN that finds a state before a cycle (R101, R110). -/
def stopsRun (s : State W) (c : Condition) (sz : Sizes := Config.sizes) : Bool :=
  match c with
  | .fetchOutOfRange => runStop s sz == some .fetchBound
  | .runawayProgram => runStop s sz == some .runaway
  | .unknownOpcode | .parseError | .emptySlot | .reservedOpcode | .outOfRangeAddress | .overflow => false

end Sys2Proof.Machine
end

