-- ==== Sys2Proof/Machine/Ports.lean ====
section
/-!
DEFINITION. The read-only outputs of the block (10_state.md R24, R28, R34, R35; 43_sequencer.md R94). Reading one
changes no state: each is a function of the state.
-/
namespace Sys2Proof.Machine

variable {W : Widths}

/-- The STATUS view (R24): bit 0 = Z, bit 1 = V, bit 2 = H, the others 0. -/
def statusView (s : State W) : BitVec 32 :=
  (0 : BitVec 29) ++ BitVec.ofBool s.halted ++ BitVec.ofBool s.v ++ BitVec.ofBool s.z

/-- SYM_COUNT as the 8-bit value of R28. DESIGN CHOICE (log 19): for a table of more than 255 entries, which takes an
IMEM_CAP above 255, it is the low 8 bits. -/
def symCount (s : State W) : BitVec 8 := BitVec.ofNat 8 s.symtab.length

/-- The outputs of R34 and R94. -/
structure Outputs (W : Widths := Config.widths) where
  acc : Word W
  dr : Word W
  pc : Target W
  z : Bool
  v : Bool
  h : Bool
  status : BitVec 32
  busy : Bool
  runaway : Bool
  deriving DecidableEq, Repr

/-- The outputs show the state's own values (R34). -/
def outputs (s : State W) : Outputs W where
  acc := s.acc
  dr := s.dr
  pc := s.pc
  z := s.z
  v := s.v
  h := s.halted
  status := statusView s
  busy := s.busy
  runaway := s.runaway

/-- What the diagnostic port gives (R35). -/
inductive Diag (W : Widths := Config.widths) where
  /-- the word in a slot -/
  | slot (w : IWord W)
  /-- a data word, and the symbol id allocated there, if any -/
  | data (x : Word W) (sym : Option (SymId W))
  deriving DecidableEq, Repr

/-- DIAG(a) (R35). The spec gives nothing for an address of neither memory (log 16). -/
def diag (a : Int) (s : State W) (sz : Sizes := Config.sizes) : Option (Diag W) :=
  if inInstrRange a sz then some (.slot (Memory.read s.imem a.toNat))
  else if 0 ≤ a ∧ inDataRange a.toNat sz then
    some (.data (memRead a.toNat s) s.symtab[a.toNat - sz.dmemBase]?)
  else none

end Sys2Proof.Machine
end

