-- ==== Sys2Proof/Machine/Loader.lean ====
section
/-!
DEFINITION. The loading contract: the program text a loader accepts and the commands it issues (30_encoding.md
R67 to R74, 70_reset_and_hazards.md R125), and the rendering of an instruction (30_encoding.md R76). The
loader is no part of the block (00_scope.md R5) and holds none of its state; `ids` is its choice of a
symbol id for each label (R60; log 11).
-/
namespace Sys2Proof.Machine

variable {W : Widths}

/-- A line, a token or a label: its characters. -/
abbrev Text := List Char

/-- The characters that separate tokens (R67; log 11). -/
def isSeparator (c : Char) : Bool := c.isWhitespace

/-- The tokens of a line, `cur` being the token read so far, backwards. -/
def tokensFrom : Text → Text → List Text
  | cur, [] => if cur = [] then [] else [cur.reverse]
  | cur, c :: rest =>
    if isSeparator c then (if cur = [] then tokensFrom [] rest else cur.reverse :: tokensFrom [] rest)
    else tokensFrom (c :: cur) rest

/-- The white-space-separated tokens of a line (R67). -/
def tokens (line : Text) : List Text := tokensFrom [] line

/-- The eleven opcode names (R68). -/
inductive OpName where
  | dec | ldi | lda | str | xch | add | sub | jmp | jzs | jvs | hlt
  deriving DecidableEq, Repr

/-- The name as it is written (R68). -/
def OpName.text : OpName → Text
  | .dec => ['D', 'E', 'C']
  | .ldi => ['L', 'D', 'I']
  | .lda => ['L', 'D', 'A']
  | .str => ['S', 'T', 'R']
  | .xch => ['X', 'C', 'H']
  | .add => ['A', 'D', 'D']
  | .sub => ['S', 'U', 'B']
  | .jmp => ['J', 'M', 'P']
  | .jzs => ['J', 'Z', 'S']
  | .jvs => ['J', 'V', 'S']
  | .hlt => ['H', 'L', 'T']

/-- Every opcode name, in the order of R68. -/
def opNames : List OpName := [.dec, .ldi, .lda, .str, .xch, .add, .sub, .jmp, .jzs, .jvs, .hlt]

/-- The opcode a token names, matched letter for letter (R68). -/
def opNameOf (t : Text) : Option OpName := opNames.find? fun n => n.text == t

/-- The value of a decimal digit. -/
def digitValue (c : Char) : Option Nat :=
  if '0'.toNat ≤ c.toNat ∧ c.toNat ≤ '9'.toNat then some (c.toNat - '0'.toNat) else none

/-- The number a row of digits stands for, `acc` being the number read so far; none at another character. -/
def digitsFrom : Nat → Text → Option Nat
  | acc, [] => some acc
  | acc, c :: rest =>
    match digitValue c with
    | some d => digitsFrom (10 * acc + d) rest
    | none => none

/-- `[0-9]+` (R70): at least one digit. -/
def parseNat (t : Text) : Option Nat := if t = [] then none else digitsFrom 0 t

/-- `[+-]?[0-9]+` (R70). -/
def parseInt : Text → Option Int
  | '-' :: t => (parseNat t).map fun n => -(n : Int)
  | '+' :: t => (parseNat t).map fun n => (n : Int)
  | t => (parseNat t).map fun n => (n : Int)

/-- An integer operand (R70): its OPND, or none where it is a ParseError (missing, of another form, or out
of range). -/
def parseOperand (t : Option Text) : Option (Opnd W) :=
  match t.bind parseInt with
  | some i => if minInt W.opndW ≤ i ∧ i ≤ maxInt W.opndW then some (wrap i) else none
  | none => none

/-- What a line yields (R73, R74). -/
inductive LineResult (W : Widths := Config.widths) where
  | instruction (i : Instr W)
  /-- UnknownOpcode or a blank line: the slot stays empty (R73, code 1 of R110) -/
  | skipped
  /-- ParseError (R70, R74, code 2 of R110) -/
  | parseError
  deriving DecidableEq, Repr

/-- An instruction with an integer operand, or the ParseError of its operand. -/
def withOperand (mk : Opnd W → Instr W) (operand : Option Text) : LineResult W :=
  match parseOperand operand with
  | some x => .instruction (mk x)
  | none => .parseError

/-- The instruction of an opcode name and the token after it, if any (R69): a label instruction with no
operand has the empty label (R71). -/
def instructionOf (ids : Text → SymId W) (n : OpName) (operand : Option Text) : LineResult W :=
  match n with
  | .dec => .instruction (.dec (ids (operand.getD [])))
  | .ldi => withOperand .ldi operand
  | .lda => .instruction (.lda (ids (operand.getD [])))
  | .str => .instruction (.str (ids (operand.getD [])))
  | .xch => .instruction .xch
  | .add => .instruction .add
  | .sub => .instruction .sub
  | .jmp => withOperand .jmp operand
  | .jzs => withOperand .jzs operand
  | .jvs => withOperand .jvs operand
  | .hlt => .instruction .hlt

/-- What a line yields: the first token is the opcode name, the next its operand (R67), and tokens after
that are ignored (R72). -/
def assembleLine (ids : Text → SymId W) (line : Text) : LineResult W :=
  match tokens line with
  | [] => .skipped
  | name :: rest =>
    match opNameOf name with
    | some n => instructionOf ids n rest.head?
    | none => .skipped

/-- The IMEM_WRITEs of the lines from slot `k` on, and the status of the load (R73, R74, R125). -/
def loadFrom (ids : Text → SymId W) (k : Nat) (lines : List Text) (sz : Sizes := Config.sizes) :
    List (Command W) × LoadStatus :=
  match lines with
  | [] => ([], .ok)
  | line :: lines =>
    if k < sz.imemCap then
      match assembleLine ids line with
      | .instruction i =>
        let rest := loadFrom ids (k + 1) lines sz
        (.imemWrite k (encode i) :: rest.1, rest.2)
      | .skipped => loadFrom ids (k + 1) lines sz
      | .parseError => ([], .parseError)
    else ([], .ok)

/-- The commands a conforming loader issues for a program text (R125). -/
def loadCommands (ids : Text → SymId W) (program : List Text) (sz : Sizes := Config.sizes) : List (Command W) :=
  let lines := loadFrom ids 0 program sz
  .loadBegin :: (lines.1 ++ [.loadEnd lines.2])

/-- The label a line names, if it is a DEC, an LDA or an STR (R69, R71). -/
def labelOfLine (line : Text) : Option Text :=
  match tokens line with
  | [] => none
  | name :: rest =>
    match opNameOf name with
    | some .dec | some .lda | some .str => some (rest.head?.getD [])
    | some .ldi | some .xch | some .add | some .sub | some .jmp | some .jzs | some .jvs | some .hlt | none => none

/-- The distinct labels of the lines that have a slot, in order of first appearance. -/
def labelsOf (program : List Text) (sz : Sizes := Config.sizes) : List Text :=
  ((program.take sz.imemCap).filterMap labelOfLine).eraseDups

/-- The numbering the spec's examples use: 0, 1, 2, … in order of first appearance (R60; log 11). -/
def idByFirstAppearance (program : List Text) (label : Text) (sz : Sizes := Config.sizes) : SymId W :=
  BitVec.ofNat W.opndW ((labelsOf program sz).idxOf label)

/-- A decimal digit as it is written. -/
def digitChar (d : Nat) : Char := Char.ofNat ('0'.toNat + d)

/-- The decimal digits of a number below `10 ^ fuel`, the last one included always. -/
def decimalDigits : Nat → Nat → Text
  | 0, _ => []
  | fuel + 1, n => if n < 10 then [digitChar n] else decimalDigits fuel (n / 10) ++ [digitChar (n % 10)]

/-- signed(x) in decimal (R76). A pattern of n bits needs no more than n digits, and one. -/
def decimal {n : Nat} (x : BitVec n) : Text :=
  if x.toInt < 0 then '-' :: decimalDigits (n + 1) x.toInt.natAbs else decimalDigits (n + 1) x.toInt.natAbs

/-- The mnemonic of an instruction; the empty slot and a reserved word hold none (R62, R63). -/
def mnemonicOf : Instr W → Option OpName
  | .dec _ => some .dec
  | .ldi _ => some .ldi
  | .lda _ => some .lda
  | .str _ => some .str
  | .xch => some .xch
  | .add => some .add
  | .sub => some .sub
  | .jmp _ => some .jmp
  | .jzs _ => some .jzs
  | .jvs _ => some .jvs
  | .hlt => some .hlt
  | .empty | .reserved _ => none

/-- The operand part of a rendering (R76): one space and signed(OPND) in decimal in formats I and A, one
space and the label in format S, nothing in format N. -/
def renderOperand (labels : SymId W → Text) : Instr W → Text
  | .dec sym | .lda sym | .str sym => ' ' :: labels sym
  | .ldi x | .jmp x | .jzs x | .jvs x => ' ' :: decimal x
  | .xch | .add | .sub | .hlt | .empty | .reserved _ => []

/-- The textual rendering of an instruction (R76), `labels` giving the label of each id. -/
def render (labels : SymId W → Text) (i : Instr W) : Option Text :=
  (mnemonicOf i).map fun n => n.text ++ renderOperand labels i

end Sys2Proof.Machine
end

