-- ==== Sys2Proof/Safety.lean ====
section
/-!
DEFINITION. What holds in every state a run reaches (the invariant), and what a safe run is.
-/
namespace Sys2Proof.Machine

variable {W : Widths}

/-- The machine between LOAD_BEGIN and LOAD_END holds the fresh values of R123 everywhere but in IMEM and
EXEC_COUNT. -/
structure FreshButImem (s : State W) : Prop where
  acc : s.acc = 0
  dr : s.dr = 0
  z : s.z = false
  v : s.v = false
  pc : s.pc = 0
  running : s.halted = false
  dmem : s.dmem = []
  symtab : s.symtab = []
  runaway : s.runaway = false

/-- The invariant of a block of the given sizes, by default those of 00_scope.md R6. -/
structure BlockInv (s : State W) (sz : Sizes := Config.sizes) : Prop where
  /-- IMEM is in canonical form and holds the slots of the instruction range (R29) -/
  imemWf : Memory.wf s.imem
  imemSlots : ∀ p ∈ s.imem, sz.imemBase ≤ p.1 ∧ p.1 < sz.imemBase + sz.imemCap
  /-- DMEM is in canonical form, and a word of no allocated symbol still holds the 0 of reset (R30, R31, R39) -/
  dmemWf : Memory.wf s.dmem
  dmemAllocated : ∀ p ∈ s.dmem, sz.dmemBase ≤ p.1 ∧ p.1 < sz.dmemBase + s.symtab.length
  /-- no two entries of SYMTAB hold the same id (R31) -/
  symtabNodup : s.symtab.Nodup
  /-- every id in SYMTAB is named by an instruction in IMEM (R47) -/
  symtabNamed : ∀ sym ∈ s.symtab, ∃ a, inInstrRange (a : Nat) sz = true ∧ symbolOf (decode (Memory.read s.imem a)) = some sym
  /-- EXEC_COUNT never exceeds RUNAWAY_CEILING (R26, R103); with a ceiling of 2^32 or more only because it wraps
(log 19) -/
  countBounded : s.execCount.toNat ≤ sz.runawayCeiling
  /-- a RUN and a load are never both in progress (R95) -/
  notBusyLoading : s.busy = true → s.loading = false
  /-- during a load everything but IMEM and EXEC_COUNT is fresh (R123, R124) -/
  loadingFresh : s.loading = true → FreshButImem s
  /-- RUNAWAY is asserted only by a force-halt, which halts the block and ends the RUN (R103, R106) -/
  runawayHalted : s.runaway = true → s.halted = true ∧ s.busy = false

/-- What an outcome must be on a safe run: a next state, and never a fault; the one refusal is of a command
the block does not accept (R95, R109). -/
def SafeOutcome (s : State W) : Outcome W → Prop
  | .next _ => True
  | .fault _ => False
  | .refused r => ∃ c, r = .commandNotAccepted c ∧ accepts s c = false

/-- Two states hold the same registers, flags, PC, halt state, memories and symbol table: no cycle has
run between them (R121). -/
def SameProgramState (s t : State W) : Prop :=
  t.acc = s.acc ∧ t.dr = s.dr ∧ t.z = s.z ∧ t.v = s.v ∧ t.pc = s.pc ∧ t.halted = s.halted ∧
  t.imem = s.imem ∧ t.dmem = s.dmem ∧ t.symtab = s.symtab

end Sys2Proof.Machine
end

