-- ==== Sys2Proof/WellFormed.lean ====
section
/-!
DEFINITION. Which terms of Instr stand for an instruction word. Every operand is legal
(30_encoding.md R58, R59, R60), so the one check is on the opcode a reserved word carries (R63).
-/
namespace Sys2Proof

/-- A reserved word's opcode is one of 0xC, 0xD, 0xE, 0xF (R63); every other instruction is
well-formed whatever its operand. -/
def Instr.wf {W : Widths} : Instr W → Bool
  | .empty | .dec _ | .ldi _ | .lda _ | .str _ | .xch | .add | .sub
  | .jmp _ | .jzs _ | .jvs _ | .hlt => true
  | .reserved op => decide (12 ≤ op.toNat)

end Sys2Proof
end

