-- ==== Sys2Proof/Certificates/Slice0/Obligations.lean ====
section
/-!
DEFINITION. The statements for the provers, from the numbered rules of spec/, and the few definitions they are
written with.
-/
namespace Sys2Proof.Claims

open Sys2Proof.Machine

/-- The state in which a command taken is performed: the input is gone from the list, and so is the
RUNAWAY output of an earlier command (log 2, 4). -/
def taken {W : Widths} (s : State W) : State W := { s with host := s.host.tail, runaway := false }

/-- PC names a slot: `0 <= signed(PC) <= IMEM_CAP - 1`. -/
def InSlots (pc : Target) : Prop := 0 ≤ pc.toInt ∧ pc.toInt ≤ 127

/-- `wrap_32(signed(p) + 1)`. -/
def plusOne (p : Target) : Target := BitVec.ofInt 32 (p.toInt + 1)

/-- The word whose OP is `op` and whose OPND is `opnd`, by arithmetic on the 36-bit number. -/
def wordOf (op : Nat) (opnd : BitVec 32) : IWord := BitVec.ofNat 36 (op * 2 ^ 32 + opnd.toNat)

/-- PC after one cycle of an instruction fetched at PC (10_state.md R20). -/
def pcAfter (i : Instr) (s : State) : Target :=
  match i with
  | .jmp a => a
  | .jzs a => if s.z then a else plusOne s.pc
  | .jvs a => if s.v then a else plusOne s.pc
  | .hlt => s.pc
  | .empty | .dec _ | .ldi _ | .lda _ | .str _ | .xch | .add | .sub | .reserved _ => plusOne s.pc

/-- Resolving a list of symbols one after the other: the addresses given, and the state after. -/
def resolveAll : List SymId → State → List Nat × State
  | [], s => ([], s)
  | sym :: syms, s =>
    let r := resolve sym s
    let rest := resolveAll syms r.2
    (r.1 :: rest.1, rest.2)

/-- A word with its symbol id, if its instruction names one, renamed. -/
def renameWord (f : SymId → SymId) (w : IWord) : IWord :=
  match decode w with
  | .dec sym => encode (.dec (f sym))
  | .lda sym => encode (.lda (f sym))
  | .str sym => encode (.str (f sym))
  | .empty | .ldi _ | .xch | .add | .sub | .jmp _ | .jzs _ | .jvs _ | .hlt | .reserved _ => w

def renameCommand (f : SymId → SymId) : Command → Command
  | .imemWrite a w => .imemWrite a (renameWord f w)
  | .reset => .reset
  | .loadBegin => .loadBegin
  | .loadEnd status => .loadEnd status
  | .step => .step
  | .run => .run

def renameInput (f : SymId → SymId) : HostInput → HostInput
  | .quiet => .quiet
  | .issue c => .issue (renameCommand f c)
  | .await c => .await (renameCommand f c)

/-- A state with every symbol id in it renamed: in IMEM, in SYMTAB and in the words still to be loaded. -/
def renameState (f : SymId → SymId) (s : State) : State :=
  { s with
    imem := s.imem.map fun p => (p.1, renameWord f p.2)
    symtab := s.symtab.map f
    host := s.host.map (renameInput f) }

def renameRefusal (f : SymId → SymId) : Refusal → Refusal
  | .commandNotAccepted c => .commandNotAccepted (renameCommand f c)
  | r => r

def renameOutcome (f : SymId → SymId) : Outcome → Outcome
  | .next t => .next (renameState f t)
  | .fault r => .fault r
  | .refused r => .refused (renameRefusal f r)

/-- What slot `k` holds after the load of a program text (30_encoding.md R73, R74): the word of line `k`,
if the line is there, yields an instruction, and neither it nor a line before it is a ParseError. -/
def loadedWord (ids : Text → SymId) (program : List Text) (k : Nat) : IWord :=
  if ((program.take (k + 1)).map (assembleLine ids)).contains .parseError then 0
  else
    match (program[k]?).map (assembleLine ids) with
    | some (.instruction i) => encode i
    | some .skipped | some .parseError | none => 0

/-- The number a row of decimal digits stands for. -/
def valueOf (ds : List (Fin 10)) : Nat := ds.foldl (fun acc d => 10 * acc + d.val) 0

/-- A row of decimal digits as it is written. -/
def written (ds : List (Fin 10)) : Text := ds.map fun d => Char.ofNat (48 + d.val)

end Sys2Proof.Claims

open Sys2Proof Sys2Proof.Machine Sys2Proof.Claims

/-! ## Encoding (30_encoding.md) -/

/-- R77: every row of the table of encodings, read both ways. -/
def Obligations.TableOfEncodingsReadsBothWays : Prop :=
  ∀ p ∈ ([(.dec 0, 0x100000000), (.ldi 5, 0x200000005), (.ldi (-1), 0x2FFFFFFFF),
      (.ldi 2147483647, 0x27FFFFFFF), (.ldi (-2147483648), 0x280000000), (.lda 0, 0x300000000),
      (.str 1, 0x400000001), (.xch, 0x500000000), (.add, 0x600000000), (.sub, 0x700000000),
      (.jmp 4, 0x800000004), (.jmp (-1), 0x8FFFFFFFF), (.jzs 9, 0x900000009), (.jvs 7, 0xA00000007),
      (.hlt, 0xB00000000), (.empty, 0x000000000)] : List (Instr × IWord)),
    encode p.1 = p.2 ∧ decode p.2 = p.1

/-- R64: the decoder on all words, by OP; a reserved word executes as the empty slot does (R63; log 6). -/
def Obligations.DecoderFollowsItsCaseTable : Prop :=
  ∀ opnd : BitVec 32,
    decode (wordOf 0 opnd) = .empty ∧ decode (wordOf 1 opnd) = .dec opnd ∧
    decode (wordOf 2 opnd) = .ldi opnd ∧ decode (wordOf 3 opnd) = .lda opnd ∧
    decode (wordOf 4 opnd) = .str opnd ∧ decode (wordOf 5 opnd) = .xch ∧
    decode (wordOf 6 opnd) = .add ∧ decode (wordOf 7 opnd) = .sub ∧
    decode (wordOf 8 opnd) = .jmp opnd ∧ decode (wordOf 9 opnd) = .jzs opnd ∧
    decode (wordOf 10 opnd) = .jvs opnd ∧ decode (wordOf 11 opnd) = .hlt ∧
    ∀ op : BitVec 4, 12 ≤ op.toNat →
      decode (wordOf op.toNat opnd) = .reserved op ∧
      ∀ s : State, exec (.reserved op) s = exec .empty s

/-- For a block of any widths (R6), decoding undoes encoding for every well-formed instruction, and every word
decodes to a well-formed one. -/
def Obligations.DecodeUndoesEncode : Prop :=
  ∀ W : Widths, (∀ i : Instr W, i.wf = true → decode (encode i) = i) ∧
  ∀ w : IWord W, (decode w).wf = true ∧ decode (encode (decode w)) = decode w

/-- R61: every word lies in exactly one row of the opcode table, the row of the instruction it decodes to. -/
def Obligations.EveryWordSelectsExactlyOneRow : Prop :=
  ∀ w : IWord, inRowOf (decode w) w = true ∧
    ∀ i : Instr, inRowOf i w = true → rowMatch i = rowMatch (decode w)

/-- R57, R58, R59, R60: two words decode alike exactly when they have one OP and, unless the format is N,
one OPND. That a reserved word keeps its OP is the model's choice (log 6). -/
def Obligations.WordsDecodeAlikeExactlyUpToIgnoredOperand : Prop :=
  ∀ w w' : IWord, decode w = decode w' ↔
    w.toNat / 2 ^ 32 = w'.toNat / 2 ^ 32 ∧
    (w.toNat / 2 ^ 32 ∈ [0, 5, 6, 7, 11, 12, 13, 14, 15] ∨ w.toNat % 2 ^ 32 = w'.toNat % 2 ^ 32)

/-! ## Instructions (40, 41, 42) -/

/-- R79. -/
def Obligations.LdiLoadsItsLiteral : Prop :=
  ∀ (n : Word) (s : State), decode (wordOf 2 n) = .ldi n ∧
    exec (.ldi n) s = .next { s with acc := n, pc := plusOne s.pc }

/-- R82. -/
def Obligations.XchExchangesAccAndDr : Prop :=
  ∀ (opnd : BitVec 32) (s : State), decode (wordOf 5 opnd) = .xch ∧
    exec .xch s = .next { s with acc := s.dr, dr := s.acc, pc := plusOne s.pc } ∧
    exec .xch { s with acc := s.dr, dr := s.acc, pc := plusOne s.pc } =
      .next { s with pc := plusOne (plusOne s.pc) }

/-- R83, R86. That ACC on overflow is the low 32 bits of the exact sum is the spec's own reading (R83, decision
D7; log 8). -/
def Obligations.AddStoresLowBitsAndSetsFlags : Prop :=
  ∀ (opnd : BitVec 32) (s : State), decode (wordOf 6 opnd) = .add ∧
    ∃ t : State, exec .add s = .next t ∧
      t.acc.toNat = ((s.acc.toInt + s.dr.toInt) % 2 ^ 32).toNat ∧
      (t.v = true ↔ s.acc.toInt + s.dr.toInt < -2147483648 ∨ s.acc.toInt + s.dr.toInt > 2147483647) ∧
      (t.z = true ↔ t.acc = 0) ∧
      t = { s with acc := t.acc, v := t.v, z := t.z, pc := plusOne s.pc }

/-- R83, R87. That ACC on overflow is the low 32 bits of the exact difference is the spec's own reading (R83,
decision D7; log 8). -/
def Obligations.SubStoresLowBitsAndSetsFlags : Prop :=
  ∀ (opnd : BitVec 32) (s : State), decode (wordOf 7 opnd) = .sub ∧
    ∃ t : State, exec .sub s = .next t ∧
      t.acc.toNat = ((s.acc.toInt - s.dr.toInt) % 2 ^ 32).toNat ∧
      (t.v = true ↔ s.acc.toInt - s.dr.toInt < -2147483648 ∨ s.acc.toInt - s.dr.toInt > 2147483647) ∧
      (t.z = true ↔ t.acc = 0) ∧
      t = { s with acc := t.acc, v := t.v, z := t.z, pc := plusOne s.pc }

/-- R84: the consequences of the arithmetic law for ADD. -/
def Obligations.AddOverflowShowsInSignBits : Prop :=
  ∀ s : State, ∃ t : State, exec .add s = .next t ∧
    (t.v = true ↔ s.acc.msb = s.dr.msb ∧ t.acc.msb ≠ s.acc.msb) ∧
    (t.v = false → t.acc.toInt = s.acc.toInt + s.dr.toInt) ∧
    (s.acc.toInt + s.dr.toInt > 2147483647 → t.acc.toInt = s.acc.toInt + s.dr.toInt - 2 ^ 32) ∧
    (s.acc.toInt + s.dr.toInt < -2147483648 → t.acc.toInt = s.acc.toInt + s.dr.toInt + 2 ^ 32) ∧
    (t.z = true ∧ t.v = true ↔ s.acc = 0x80000000 ∧ s.dr = 0x80000000)

/-- R84: the consequences of the arithmetic law for SUB. -/
def Obligations.SubOverflowShowsInSignBits : Prop :=
  ∀ s : State, ∃ t : State, exec .sub s = .next t ∧
    (t.v = true ↔ s.acc.msb ≠ s.dr.msb ∧ t.acc.msb ≠ s.acc.msb) ∧
    (t.v = false → t.acc.toInt = s.acc.toInt - s.dr.toInt) ∧
    (t.z = true ↔ s.acc = s.dr) ∧
    ¬ (t.z = true ∧ t.v = true)

/-- R89. -/
def Obligations.JmpSetsPc : Prop :=
  ∀ (addr : Word) (s : State), decode (wordOf 8 addr) = .jmp addr ∧
    exec (.jmp addr) s = .next { s with pc := addr }

/-- R90. -/
def Obligations.JzsJumpsExactlyWhenZ : Prop :=
  ∀ (addr : Word) (s : State), decode (wordOf 9 addr) = .jzs addr ∧
    exec (.jzs addr) { s with z := true } = .next { s with z := true, pc := addr } ∧
    exec (.jzs addr) { s with z := false } = .next { s with z := false, pc := plusOne s.pc }

/-- R91. -/
def Obligations.JvsJumpsExactlyWhenV : Prop :=
  ∀ (addr : Word) (s : State), decode (wordOf 10 addr) = .jvs addr ∧
    exec (.jvs addr) { s with v := true } = .next { s with v := true, pc := addr } ∧
    exec (.jvs addr) { s with v := false } = .next { s with v := false, pc := plusOne s.pc }

/-- R92. That PC keeps the address of the HLT is the spec's own inference (from R92 and R98). -/
def Obligations.HltHaltsAndKeepsPc : Prop :=
  ∀ (opnd : BitVec 32) (s : State), decode (wordOf 11 opnd) = .hlt ∧
    exec .hlt s = .next { s with halted := true }

/-- R93, R62: the empty slot; and every reserved word, whose no-op is the spec's decision (R63, D6; log 8) and
whose constructor, where R64 gives the kind EMPTY, is the model's choice (log 6). -/
def Obligations.EmptyAndReservedOnlyAdvancePc : Prop :=
  ∀ (opnd : BitVec 32) (s : State),
    decode (wordOf 0 opnd) = .empty ∧ exec .empty s = .next { s with pc := plusOne s.pc } ∧
    ∀ op : BitVec 4, (12 ≤ op.toNat → decode (wordOf op.toNat opnd) = .reserved op) ∧
      exec (.reserved op) s = .next { s with pc := plusOne s.pc }

/-- R44. In a state with a full table, which no run reaches, the allocation is the model's choice (log 5). -/
def Obligations.ResolveFindsOrAllocates : Prop :=
  ∀ (sym : SymId) (s : State),
    (∀ i : Nat, s.symtab[i]? = some sym → (∀ j < i, s.symtab[j]? ≠ some sym) →
      resolve sym s = (128 + i, s)) ∧
    (sym ∉ s.symtab → resolve sym s = (128 + s.symtab.length, { s with symtab := s.symtab ++ [sym] }))

/-- R46: resolving again gives the same address and changes nothing, and N distinct ids resolved for the
first time get 128, 129, … in that order. For more than 128 ids the table grows past SYMTAB_CAP, which no
run reaches: the model's choice (log 5). -/
def Obligations.ResolveIsIdempotentAndInFirstUseOrder : Prop :=
  (∀ (sym : SymId) (s : State), resolve sym (resolve sym s).2 = resolve sym s) ∧
  ∀ (syms : List SymId) (s : State), syms.Nodup → s.symtab = [] →
    (resolveAll syms s).1 = (List.range syms.length).map (128 + ·) ∧
    (resolveAll syms s).2 = { s with symtab := syms }

/-- R78, R48: DEC writes 0 at the address its symbol resolves to, when that is a data address, and changes
nothing else but SYMTAB (by Resolve) and PC. -/
def Obligations.DecClearsItsVariable : Prop :=
  ∀ (sym : SymId) (s : State), Memory.wf s.dmem → decode (wordOf 1 sym) = .dec sym ∧
    ∃ t : State, exec (.dec sym) s = .next t ∧
      (∀ a : Nat, Memory.read t.dmem a =
        if a = (resolve sym s).1 ∧ a ≤ 255 then 0 else Memory.read s.dmem a) ∧
      t = { s with symtab := (resolve sym s).2.symtab, dmem := t.dmem, pc := plusOne s.pc }

/-- R80, R48: LDA loads the word at the address its symbol resolves to, when that is a data address, and
changes nothing else but SYMTAB (by Resolve) and PC. -/
def Obligations.LdaLoadsItsVariable : Prop :=
  ∀ (sym : SymId) (s : State), decode (wordOf 3 sym) = .lda sym ∧
    exec (.lda sym) s = .next { s with
      symtab := (resolve sym s).2.symtab
      acc := if (resolve sym s).1 ≤ 255 then Memory.read s.dmem (resolve sym s).1 else s.acc
      pc := plusOne s.pc }

/-- R81, R48: STR writes ACC at the address its symbol resolves to, when that is a data address, and changes
nothing else but SYMTAB (by Resolve) and PC. -/
def Obligations.StrStoresAcc : Prop :=
  ∀ (sym : SymId) (s : State), Memory.wf s.dmem → decode (wordOf 4 sym) = .str sym ∧
    ∃ t : State, exec (.str sym) s = .next t ∧
      (∀ a : Nat, Memory.read t.dmem a =
        if a = (resolve sym s).1 ∧ a ≤ 255 then s.acc else Memory.read s.dmem a) ∧
      t = { s with symtab := (resolve sym s).2.symtab, dmem := t.dmem, pc := plusOne s.pc }

/-- R80 (corner case), R31, R39: in a state a run can reach, the first use of a symbol by LDA loads 0. -/
def Obligations.FirstUseByLdaLoadsZero : Prop :=
  ∀ (sym : SymId) (s : State), BlockInv s → sym ∉ s.symtab → s.symtab.length < 128 →
    exec (.lda sym) s =
      .next { s with symtab := s.symtab ++ [sym], acc := 0, pc := plusOne s.pc }

/-- R81, R80, R46: what STR stored, LDA of the same symbol loads back, whatever ACC, DR, flags and PC have
become. -/
def Obligations.StoreThenLoadReturnsValue : Prop :=
  ∀ (sym : SymId) (s : State) (acc dr pc : Word) (z v : Bool),
    Memory.wf s.dmem → (resolve sym s).1 ≤ 255 →
    ∃ t u : State, exec (.str sym) s = .next t ∧
      exec (.lda sym) { t with acc := acc, dr := dr, z := z, v := v, pc := pc } = .next u ∧ u.acc = s.acc

/-- R31, R30, R81, R80: variables of different symbols are different words: a store into one does not change
what a load of the other gives, even when the store changes the address the other is given. -/
def Obligations.StoreLeavesOtherVariablesAlone : Prop :=
  ∀ (sym other : SymId) (s : State), BlockInv s → s.symtab.length + 2 ≤ 128 → sym ≠ other →
    ∃ t u w : State, exec (.str sym) s = .next t ∧ exec (.lda other) t = .next u ∧
      exec (.lda other) s = .next w ∧ u.acc = w.acc

/-! ## What every instruction leaves alone, and what none reads -/

/-- R16, R20, R98, R109: every instruction completes in every state, sets PC as R20 says, and writes only what
R16 lists: of data memory, DEC and STR the word their symbol resolves to, when it is a data address. -/
def Obligations.EveryInstructionWritesOnlyItsOwnState : Prop :=
  ∀ (i : Instr) (s : State), ∃ t : State, exec i s = .next t ∧
    t.pc = pcAfter i s ∧
    t.imem = s.imem ∧ t.execCount = s.execCount ∧ t.busy = s.busy ∧ t.loading = s.loading ∧
    t.runaway = s.runaway ∧ t.host = s.host ∧
    (t.acc = s.acc ∨ i ∈ [.xch, .add, .sub] ∨ (∃ n, i = .ldi n) ∨ ∃ sym, i = .lda sym) ∧
    (t.dr = s.dr ∨ i = .xch) ∧
    (t.z = s.z ∧ t.v = s.v ∨ i = .add ∨ i = .sub) ∧
    (t.halted = s.halted ∨ i = .hlt) ∧
    (t.symtab = s.symtab ∨ ∃ sym, symbolOf i = some sym ∧ t.symtab = s.symtab ++ [sym]) ∧
    (t.dmem = s.dmem ∨ ∃ sym, i = .dec sym ∨ i = .str sym) ∧
    ∀ sym : SymId, i = .dec sym ∨ i = .str sym → Memory.wf s.dmem →
      ∀ a : Nat, a ≠ (resolve sym s).1 ∨ 255 < (resolve sym s).1 →
        Memory.read t.dmem a = Memory.read s.dmem a

/-- R22, R23, R15, R14: only JZS reads Z, only JVS reads V, only XCH, ADD and SUB read DR, and only STR, XCH,
ADD and SUB read ACC. -/
def Obligations.RegistersAreReadOnlyWhereListed : Prop :=
  ∀ (i : Instr) (s : State),
    (∀ b : Bool, (∃ a, i = .jzs a) ∨
      ∃ t : State, exec i s = .next t ∧ (exec i { s with z := b } = .next { t with z := b } ∨
        (i = .add ∨ i = .sub) ∧ exec i { s with z := b } = .next t)) ∧
    (∀ b : Bool, (∃ a, i = .jvs a) ∨
      ∃ t : State, exec i s = .next t ∧ (exec i { s with v := b } = .next { t with v := b } ∨
        (i = .add ∨ i = .sub) ∧ exec i { s with v := b } = .next t)) ∧
    (∀ x : Word, i ∈ [.xch, .add, .sub] ∨
      ∃ t : State, exec i s = .next t ∧ exec i { s with dr := x } = .next { t with dr := x }) ∧
    (∀ x : Word, i ∈ [.xch, .add, .sub] ∨ (∃ sym, i = .str sym) ∨
      ∃ t : State, exec i s = .next t ∧ (exec i { s with acc := x } = .next { t with acc := x } ∨
        exec i { s with acc := x } = .next t))

/-- R53, R29: IMEM changes only through RESET, LOAD_BEGIN and IMEM_WRITE. -/
def Obligations.ImemChangesOnlyThroughTheLoadPort : Prop :=
  ∀ (scope : CeilingScope) (s t : State), stepWith scope s = .next t →
    t.imem = s.imem ∨ commandTaken s = some .reset ∨ commandTaken s = some .loadBegin ∨
      ∃ a w, commandTaken s = some (.imemWrite a w) ∧ s.loading = true

/-- R31: within a program run an entry of SYMTAB, once written, is never changed, and SYM_COUNT only
grows. -/
def Obligations.SymtabOnlyGrows : Prop :=
  ∀ (scope : CeilingScope) (s t : State), stepWith scope s = .next t →
    (∃ new : List SymId, t.symtab = s.symtab ++ new ∧ new.length ≤ 1) ∨
      commandTaken s = some .reset ∨ commandTaken s = some .loadBegin

/-! ## The sequencer (43) and the commands -/

/-- R97: a fetch sees the slot PC names, and the empty word outside the fetch range, where the cycle only
advances PC; a RUN stops there before it fetches. -/
def Obligations.FetchSeesSlotOrEmptyWord : Prop :=
  ∀ s : State,
    (∀ k : Nat, k < 128 → s.pc.toInt = k → fetch s = Memory.read s.imem k) ∧
    (¬ InSlots s.pc → fetch s = 0x000000000 ∧
      exec (decode (fetch s)) s = .next { s with pc := plusOne s.pc }) ∧
    ∀ scope : CeilingScope, ¬ InSlots s.pc → s.host = [] → s.busy = true →
      stepWith scope s = .next { s with busy := false }

/-- R96, R100, R101: a step of the machine that takes a STEP while Running, or that goes on with a RUN no stop
condition ends, is exec of the decoded word at PC, with the input of the host taken in the one case and
EXEC_COUNT grown in the other. -/
def Obligations.StepRunsTheDecodedInstruction : Prop :=
  (∀ s : State, commandTaken s = some .step → s.busy = false → s.loading = false → s.halted = false →
    ∃ t : State, exec (decode (fetch s)) (taken s) = .next t ∧ step s = .next t) ∧
  ∀ s : State, s.host = [] → s.busy = true → s.halted = false → InSlots s.pc → s.execCount.toNat < 1000 →
    ∃ t : State, exec (decode (fetch s)) s = .next t ∧
      step s = .next { t with execCount := s.execCount + 1 }

/-- The placing of a word to run next, the model's choice (log 9): the very next step runs it. -/
def Obligations.WithFetchWordRunsThatWordNext : Prop :=
  ∀ (s : State) (nbits w : Nat), Memory.wf s.imem → w % 2 ^ nbits < 2 ^ 36 →
    ∃ i t, decodeTableWord nbits w = some i ∧
      exec i (taken (s.withFetchWord nbits w)) = .next t ∧ step (s.withFetchWord nbits w) = .next t ∧
      (InSlots s.pc → (s.withFetchWord nbits w).pc = s.pc)

/-- R100: STEP. -/
def Obligations.StepCommandIsOneCycleOrNothing : Prop :=
  ∀ (scope : CeilingScope) (s : State), commandTaken s = some .step → s.busy = false → s.loading = false →
    (s.halted = true → stepWith scope s = .next (taken s)) ∧
    (s.halted = false → stepWith scope s = exec (decode (fetch s)) (taken s)) ∧
    (s.halted = false → ¬ InSlots s.pc → stepWith scope s = .next { taken s with pc := plusOne s.pc }) ∧
    ∃ t : State, stepWith scope s = .next t ∧ t.busy = false ∧ t.execCount = s.execCount ∧
      ∀ n : BitVec 32, stepWith scope { s with execCount := n } = .next { t with execCount := n }

/-- R101: the start of a RUN and each pass of its loop; one pass a step is the model's choice (log 1). -/
def Obligations.RunFollowsItsLoop : Prop :=
  (∀ (scope : CeilingScope) (s : State),
    commandTaken s = some .run → s.busy = false → s.loading = false →
    stepWith scope s = .next { taken s with
      busy := true, execCount := if scope = .runCommand then 0 else s.execCount }) ∧
  ∀ (scope : CeilingScope) (s : State), s.host = [] → s.busy = true →
    (s.halted = true → stepWith scope s = .next { s with busy := false }) ∧
    (s.halted = false → ¬ InSlots s.pc → stepWith scope s = .next { s with busy := false }) ∧
    (s.halted = false → InSlots s.pc → 1000 ≤ s.execCount.toNat →
      stepWith scope s = .next { s with halted := true, runaway := true, busy := false }) ∧
    (s.halted = false → InSlots s.pc → s.execCount.toNat < 1000 →
      ∃ t : State, exec (decode (fetch s)) s = .next t ∧
        stepWith scope s = .next { t with execCount := s.execCount + 1 })

/-- R102: EXEC_COUNT grows by one after every cycle of a RUN, and at nothing else. -/
def Obligations.ExecCountGrowsOnlyByRunCycles : Prop :=
  ∀ (scope : CeilingScope) (s t : State), stepWith scope s = .next t →
    (s.busy = true → commandTaken s = none → runStop s = none →
      t.execCount.toNat = s.execCount.toNat + 1) ∧
    (s.execCount.toNat < t.execCount.toNat →
      s.busy = true ∧ commandTaken s = none ∧ runStop s = none)

/-- R104, R101: what the order of the stop tests gives for a RUN as the host sees it. That a RUN under
RunCommand clears EXEC_COUNT even when it stops at once is the model's reading (log 13). -/
def Obligations.RunStopsAreTestedInOrder : Prop :=
  ∀ (scope : CeilingScope) (s : State),
    let started := { s with
      busy := false, runaway := false, execCount := if scope = .runCommand then 0 else s.execCount }
    (s.halted = true → runToHalt scope s = .next started) ∧
    (s.halted = false → ¬ InSlots s.pc → runToHalt scope s = .next started) ∧
    (s.halted = false → InSlots s.pc → 1000 ≤ started.execCount.toNat →
      runToHalt scope s = .next { started with halted := true, runaway := true }) ∧
    (s.halted = false → InSlots s.pc → started.execCount.toNat < 1000 → decode (fetch s) = .hlt →
      runToHalt scope s = .next { started with halted := true, execCount := started.execCount + 1 })

/-- R99, R25, R121: the transitions of the halt state machine, each exactly at its event; in Halted nothing
executes. -/
def Obligations.HaltStateMachineTransitions : Prop :=
  ∀ (scope : CeilingScope) (s t : State), stepWith scope s = .next t →
    (s.halted = false → (t.halted = true ↔
      decode (fetch s) = .hlt ∧
        (commandTaken s = some .step ∨ commandTaken s = none ∧ s.busy = true ∧ runStop s = none) ∨
      commandTaken s = none ∧ s.busy = true ∧ InSlots s.pc ∧ 1000 ≤ s.execCount.toNat)) ∧
    (s.halted = true → (t.halted = false ↔
      commandTaken s = some .reset ∨ commandTaken s = some .loadBegin)) ∧
    (s.halted = true → commandTaken s = some .step ∨ commandTaken s = some .run ∨ commandTaken s = none →
      SameProgramState s t) ∧
    (commandTaken s = some .reset ∨ commandTaken s = some .loadBegin → t.halted = false)

/-- R103, R106: RUNAWAY rises exactly at a force-halt, which leaves everything else of the program as it
was. That it is a level that rises, and stays until the next command, is the model's choice (log 4). -/
def Obligations.RunawayRisesExactlyAtForceHalt : Prop :=
  ∀ (scope : CeilingScope) (s t : State), stepWith scope s = .next t → s.runaway = false →
    (t.runaway = true ↔ commandTaken s = none ∧ s.busy = true ∧ s.halted = false ∧ InSlots s.pc ∧
      1000 ≤ s.execCount.toNat) ∧
    (t.runaway = true → t.halted = true ∧ t.busy = false ∧ t.pc = s.pc ∧ t.acc = s.acc ∧ t.dr = s.dr ∧
      t.z = s.z ∧ t.v = s.v ∧ t.dmem = s.dmem ∧ t.symtab = s.symtab ∧ t.execCount = s.execCount)

/-- R107: a RUN always ends, within the cycles the ceiling leaves it, in one of three states. That a cycle is
one step, and the last test one more, is the model's choice (log 1). -/
def Obligations.RunEndsInOneOfThreeStates : Prop :=
  ∀ (scope : CeilingScope) (s : State), s.busy = true → s.host = [] → s.runaway = false →
    ∃ (n : Nat) (t : State), n ≤ (1000 - s.execCount.toNat) + 1 ∧ stepsWith scope n s = .next t ∧
      t.busy = false ∧
      (t.halted = true ∧ t.runaway = false ∧ (s.halted = true ∨ decode (fetch t) = .hlt) ∨
       t.halted = true ∧ t.runaway = true ∧ InSlots t.pc ∧ 1000 ≤ t.execCount.toNat ∨
       t.halted = false ∧ t.runaway = false ∧ ¬ InSlots t.pc)

/-- R95, R101, R107: the steps of a RUN nobody interrupts are the one transaction runToHalt, which ends with
BUSY false. The steps are the model's choice (log 1). -/
def Obligations.StepsOfARunAreOneTransaction : Prop :=
  ∀ (scope : CeilingScope) (s : State), commandTaken s = some .run → s.host.tail = [] →
    s.busy = false → s.loading = false →
    ∃ t : State, runToHalt scope (taken s) = .next t ∧ t.busy = false ∧
      ∀ n : Nat, 1002 ≤ n → stepsWith scope n s = .next t

/-- R103, R89: a jump to itself, met in a RUN, runs every cycle the ceiling leaves and ends in a force-halt
at the jump. That a cycle is one step, and the last test one more, is the model's choice (log 1). -/
def Obligations.JumpToItselfForceHaltsAtTheCeiling : Prop :=
  ∀ (scope : CeilingScope) (s : State), s.busy = true → s.host = [] → s.halted = false → InSlots s.pc →
    decode (fetch s) = .jmp s.pc → s.execCount.toNat ≤ 1000 →
    stepsWith scope (1000 - s.execCount.toNat + 1) s =
      .next { s with halted := true, runaway := true, busy := false, execCount := 1000 }

/-- R96, R100, R101: a cycle does the same to the program's state in a STEP and in a RUN. -/
def Obligations.RunCycleEqualsStepCycle : Prop :=
  ∀ (scope : CeilingScope) (s : State), s.halted = false → InSlots s.pc → s.execCount.toNat < 1000 →
    ∃ t u : State,
      stepWith scope { s with busy := false, loading := false, host := [.issue .step] } = .next t ∧
      stepWith scope { s with busy := true, loading := false, host := [] } = .next u ∧
      SameProgramState t u

/-- R95, R124: which commands are accepted. One that is not is refused by name (93_implementation_defined.md
part 2, 13), a LOAD_END outside a load among them (the model's reading, log 3). -/
def Obligations.CommandsAreAcceptedOrRefused : Prop :=
  ∀ (scope : CeilingScope) (s : State) (c : Command), commandTaken s = some c →
    let accepted := match c with
      | .reset => True
      | .imemWrite _ _ | .loadEnd _ => s.busy = false ∧ s.loading = true
      | .loadBegin | .step | .run => s.busy = false ∧ s.loading = false
    (accepted → ∃ t, stepWith scope s = .next t) ∧
    (¬ accepted → stepWith scope s = .refused (.commandNotAccepted c))

/-- R109, R95: no step faults, whatever the state, and the only refusal is of a command the block does not
accept. -/
def Obligations.NoStepFaults : Prop :=
  ∀ (scope : CeilingScope) (s : State), SafeOutcome s (stepWith scope s) ∧
    (commandTaken s = none → ∃ t, stepWith scope s = .next t)

/-- R122: RESET, accepted in every state; and it is the state after reset. `loading` false is the model's
reading (log 3), the empty input list its choice (log 2). -/
def Obligations.ResetSetsEveryPieceOfState : Prop :=
  (∀ (scope : CeilingScope) (s : State), commandTaken s = some .reset →
    stepWith scope s = .next
      { acc := 0, dr := 0, z := false, v := false, pc := 0, halted := false, imem := [], dmem := [],
        symtab := [], execCount := 0, busy := false, loading := false, runaway := false,
        host := s.host.tail }) ∧
  State.reset =
    { acc := 0, dr := 0, z := false, v := false, pc := 0, halted := false, imem := [], dmem := [],
      symtab := [], execCount := 0, busy := false, loading := false, runaway := false, host := [] } ∧
  ∀ a : Nat, decode (Memory.read State.reset.imem a) = .empty ∧ Memory.read State.reset.dmem a = 0

/-- R123, R105: LOAD_BEGIN. That it takes RUNAWAY away is the model's choice (log 4). -/
def Obligations.LoadBeginMakesAFreshMachine : Prop :=
  ∀ (scope : CeilingScope) (s : State), commandTaken s = some .loadBegin → s.busy = false →
    s.loading = false →
    stepWith scope s = .next
      { acc := 0, dr := 0, z := false, v := false, pc := 0, halted := false, imem := [], dmem := [],
        symtab := [], execCount := if scope = .load then 0 else s.execCount, busy := false,
        loading := true, runaway := false, host := s.host.tail }

/-- R124: IMEM_WRITE and LOAD_END. -/
def Obligations.LoadPortWritesSlots : Prop :=
  ∀ (scope : CeilingScope) (s : State), s.busy = false → s.loading = true → Memory.wf s.imem →
    (∀ (a : Int) (w : IWord), commandTaken s = some (.imemWrite a w) →
      ∃ t : State, stepWith scope s = .next t ∧ t = { taken s with imem := t.imem } ∧
        ∀ k : Nat, Memory.read t.imem k =
          if (k : Int) = a ∧ a ≤ 127 then w else Memory.read s.imem k) ∧
    ∀ status : LoadStatus, commandTaken s = some (.loadEnd status) →
      stepWith scope s = .next { taken s with loading := false }

/-- The block with no command at hand: it waits, or goes on with its RUN, whatever the host does not yet
issue. These inputs and steps are the model's choice (log 1, 2). -/
def Obligations.NoCommandWaitsOrGoesOn : Prop :=
  ∀ (scope : CeilingScope) (s : State),
    (s.host = [] → s.busy = false → stepWith scope s = .next s) ∧
    (∀ rest, s.host = .quiet :: rest → ∃ t, stepWith scope { s with host := [] } = .next t ∧
      stepWith scope s = .next { t with host := rest }) ∧
    (∀ c rest, s.host = .await c :: rest →
      (s.busy = true → ∃ t, stepWith scope { s with host := [] } = .next t ∧
        stepWith scope s = .next { t with host := s.host }) ∧
      (s.busy = false → stepWith scope s = stepWith scope { s with host := .issue c :: rest }))

/-! ## Invariants -/

/-- The invariant holds at reset. -/
def Obligations.ResetMeetsTheInvariant : Prop := BlockInv State.reset

/-- Every step, at every CEILING_SCOPE and for a block of any widths and sizes (R6), keeps the invariant. That EXEC_COUNT
wraps under a RUNAWAY_CEILING of 2^32 or more is the model's choice (log 19). -/
def Obligations.EveryStepKeepsTheInvariant : Prop :=
  (∀ (W : Widths) (sz : Sizes) (scope : CeilingScope) (s t : State W),
    BlockInv s sz → stepWith scope s sz = .next t → BlockInv t sz) ∧
  ∀ s t : State, BlockInv s → step s = .next t → BlockInv t

/-- R47: in a state a run can reach, for a block of any widths and sizes, SYM_COUNT never exceeds SYMTAB_CAP, and the
symbol of the instruction about to run resolves to an address from DMEM_BASE on, with a free entry where it
is new; to a data address where IMEM_CAP ≤ DMEM_CAP, as at the defaults, where that is 128 to 255. -/
def Obligations.SymbolsAlwaysResolveInRange : Prop :=
  (∀ (W : Widths) (sz : Sizes) (s : State W), BlockInv s sz → s.symtab.length ≤ sz.symtabCap ∧
    ∀ sym, symbolOf (decode (fetch s sz)) = some sym →
      sz.dmemBase ≤ (resolve sym s sz).1 ∧ (resolve sym s sz).1 < sz.dmemBase + sz.symtabCap ∧
      (resolve sym s sz).2.symtab.length ≤ sz.symtabCap ∧
      (sz.imemCap ≤ sz.dmemCap → (resolve sym s sz).1 ≤ sz.dmemTop)) ∧
  ∀ s : State, BlockInv s → s.symtab.length ≤ 128 ∧
    ∀ sym, symbolOf (decode (fetch s)) = some sym →
      128 ≤ (resolve sym s).1 ∧ (resolve sym s).1 ≤ 255 ∧ (resolve sym s).2.symtab.length ≤ 128

/-- R60, R33: symbol ids are only names: under any one-to-one renaming of the ids in IMEM, in SYMTAB and in
the words still to be loaded, every step does the same. -/
def Obligations.SymbolIdsAreOnlyNames : Prop :=
  ∀ (f : SymId → SymId), Function.Injective f → ∀ (scope : CeilingScope) (s : State),
    stepWith scope (renameState f s) = renameOutcome f (stepWith scope s)

/-! ## Ports and conditions -/

/-- R24, R28, R34, R35, R94: the outputs, SYM_COUNT and the diagnostic port. What the outputs show while BUSY is the
model's choice (log 17), which R95 leaves open, and so is RUNAWAY as a level (log 4). The layout of STATUS and the
port are the spec's decisions (log 8). -/
def Obligations.PortsShowTheState : Prop :=
  ∀ s : State,
    ((outputs s).acc = s.acc ∧ (outputs s).dr = s.dr ∧ (outputs s).pc = s.pc ∧ (outputs s).z = s.z ∧
      (outputs s).v = s.v ∧ (outputs s).h = s.halted ∧ (outputs s).busy = s.busy ∧
      (outputs s).runaway = s.runaway) ∧
    (s.symtab.length ≤ 128 → (symCount s).toNat = s.symtab.length) ∧
    (outputs s).status.toNat = s.z.toNat + 2 * s.v.toNat + 4 * s.halted.toNat ∧
    (∀ a : Nat, a < 128 → diag a s = some (.slot (Memory.read s.imem a))) ∧
    ∀ k : Nat, k < 128 → diag (128 + k : Nat) s = some (.data (Memory.read s.dmem (128 + k)) s.symtab[k]?)

/-- R110, R112: each condition is met exactly at its cause, and no two apply to one cycle, nor stop one RUN.
UnknownOpcode and ParseError are met by the loader alone. -/
def Obligations.ConditionsExcludeEachOther : Prop :=
  ∀ s : State,
    (meetsInCycle s .emptySlot = true ↔ InSlots s.pc ∧ (fetch s).toNat / 2 ^ 32 = 0) ∧
    (meetsInCycle s .reservedOpcode = true ↔ InSlots s.pc ∧ 12 ≤ (fetch s).toNat / 2 ^ 32) ∧
    (meetsInCycle s .fetchOutOfRange = true ↔ ¬ InSlots s.pc) ∧
    (meetsInCycle s .outOfRangeAddress = true ↔ ∃ sym, symbolOf (decode (fetch s)) = some sym ∧
      ¬ (128 ≤ (resolve sym s).1 ∧ (resolve sym s).1 ≤ 255)) ∧
    (meetsInCycle s .overflow = true ↔
      decode (fetch s) = .add ∧
        (s.acc.toInt + s.dr.toInt < -2147483648 ∨ s.acc.toInt + s.dr.toInt > 2147483647) ∨
      decode (fetch s) = .sub ∧
        (s.acc.toInt - s.dr.toInt < -2147483648 ∨ s.acc.toInt - s.dr.toInt > 2147483647)) ∧
    (stopsRun s .fetchOutOfRange = true ↔ s.halted = false ∧ ¬ InSlots s.pc) ∧
    (stopsRun s .runawayProgram = true ↔
      s.halted = false ∧ InSlots s.pc ∧ 1000 ≤ s.execCount.toNat) ∧
    (∀ c ∈ [Condition.unknownOpcode, .parseError, .runawayProgram], meetsInCycle s c = false) ∧
    (∀ c ∈ [Condition.unknownOpcode, .parseError, .emptySlot, .reservedOpcode, .outOfRangeAddress, .overflow],
      stopsRun s c = false) ∧
    ∀ c d : Condition, (meetsInCycle s c = true → meetsInCycle s d = true → c = d) ∧
      (stopsRun s c = true → stopsRun s d = true → c = d)

/-! ## The loading contract (30_encoding.md section 7) -/

/-- R76: the rendering of an instruction, read as a line, gives the instruction back. -/
def Obligations.RenderingRoundTrips : Prop :=
  ∀ (ids : Text → SymId) (labels : SymId → Text) (i : Instr) (line : Text),
    render labels i = some line →
    (∀ sym, symbolOf i = some sym →
      ids (labels sym) = sym ∧ ∀ c ∈ labels sym, isSeparator c = false) →
    assembleLine ids line = .instruction i

/-- R70: an integer operand, and the ParseError of one that is missing, of another form or out of range. -/
def Obligations.IntegerOperandsHaveTheStatedForm : Prop :=
  (∀ (ids : Text → SymId) (o : Option Text),
    instructionOf ids .ldi o = (parseOperand o).elim .parseError (fun x => .instruction (.ldi x)) ∧
    instructionOf ids .jmp o = (parseOperand o).elim .parseError (fun x => .instruction (.jmp x)) ∧
    instructionOf ids .jzs o = (parseOperand o).elim .parseError (fun x => .instruction (.jzs x)) ∧
    instructionOf ids .jvs o = (parseOperand o).elim .parseError (fun x => .instruction (.jvs x))) ∧
  (parseOperand none : Option Opnd) = none ∧
  (∀ (ds : List (Fin 10)), ds ≠ [] →
    parseInt (written ds) = some (valueOf ds : Int) ∧
    parseInt ('+' :: written ds) = some (valueOf ds : Int) ∧
    parseInt ('-' :: written ds) = some (-(valueOf ds : Int))) ∧
  (∀ t : Text, parseInt t ≠ none →
    ∃ ds : List (Fin 10), ds ≠ [] ∧ (t = written ds ∨ t = '+' :: written ds ∨ t = '-' :: written ds)) ∧
  ∀ t : Text, (parseOperand (some t) : Option Opnd) = match parseInt t with
    | some i => if -2147483648 ≤ i ∧ i ≤ 2147483647 then some (BitVec.ofInt 32 i) else none
    | none => none

/-- R67, R68, R71, R72, R73: a line is read by its first two tokens. -/
def Obligations.LinesAreReadByTheirFirstTwoTokens : Prop :=
  ∀ (ids : Text → SymId) (line : Text),
    (tokens line = [] → assembleLine ids line = .skipped) ∧
    (∀ name rest, tokens line = name :: rest → (∀ n : OpName, n.text ≠ name) →
      assembleLine ids line = .skipped) ∧
    (∀ (n : OpName) operand rest, tokens line = n.text :: operand :: rest →
      assembleLine ids line = instructionOf ids n (some operand)) ∧
    (∀ n : OpName, tokens line = [n.text] →
      assembleLine ids line = instructionOf ids n none) ∧
    (∀ o : Option Text, instructionOf ids .xch o = .instruction .xch ∧
      instructionOf ids .add o = .instruction .add ∧ instructionOf ids .sub o = .instruction .sub ∧
      instructionOf ids .hlt o = .instruction .hlt) ∧
    instructionOf ids .dec none = .instruction (.dec (ids [])) ∧
    instructionOf ids .lda none = .instruction (.lda (ids [])) ∧
    instructionOf ids .str none = .instruction (.str (ids []))

/-- R73, R74, R125: the load of a program text, as the block takes it, leaves in every slot the word of its
line, nothing from a ParseError on, and the rest of the machine fresh. That each command is an input of the
host and takes one step is the model's choice (log 1, 2). -/
def Obligations.LoadingAProgramFillsItsSlots : Prop :=
  ∀ (scope : CeilingScope) (ids : Text → SymId) (program : List Text) (s : State),
    s.busy = false → s.loading = false → s.host = (loadCommands ids program).map .issue →
    ∃ t : State, stepsWith scope s.host.length s = .next t ∧ FreshButImem t ∧ t.loading = false ∧
      t.busy = false ∧ t.host = [] ∧ t.execCount = (if scope = .load then 0 else s.execCount) ∧
      ∀ k : Nat, Memory.read t.imem k = if k < 128 then loadedWord ids program k else 0

/-- R60: the numbering by first appearance, the model's choice among those R60 allows (log 11), gives distinct
labels of a program text distinct ids. -/
def Obligations.DistinctLabelsGetDistinctIds : Prop :=
  ∀ (program : List Text) (l l' : Text), l ∈ labelsOf program → l' ∈ labelsOf program →
    (idByFirstAppearance program l : SymId) = idByFirstAppearance program l' → l = l'

/-! ## The parameters (00_scope.md R6, R7) -/

/-- R48: for a block of any widths and sizes, an access of DEC, LDA or STR outside the data range does nothing; the
allocation in SYMTAB has happened, and the sequencer advances PC (R98). With a table of SYMTAB_CAP entries,
which no run reaches, that allocation is the model's choice (log 5). -/
def Obligations.OutOfRangeAccessDoesNothing : Prop :=
  ∀ (W : Widths) (sz : Sizes) (sym : SymId W) (s : State W), sz.dmemTop < (resolve sym s sz).1 →
    ∀ i ∈ [Instr.dec sym, .lda sym, .str sym], execAt i s sz =
      .next { s with symtab := (resolve sym s sz).2.symtab, pc := s.pc + 1 }

/-- R6, R7, R8, R10: the parameters at their defaults, and what depends on them for a block of any widths and
sizes: the instruction addresses from IMEM_BASE on and the data addresses right after them, the fetch range of a PC
of PC_W bits, WORD_W, the range beyond which ADD and SUB set V, and the values of a literal and of a target. The widths, the fetch bound, SYMTAB_CAP and the
default CEILING_SCOPE are the spec's decisions (log 8); that the fetch range follows IMEM_BASE and that the bounds of
V follow XLEN is deduced (log 18). -/
def Obligations.ParametersHaveTheirDefaultsAndRanges : Prop :=
  (Config.widths.xlen = 32 ∧ Config.widths.pcW = 32 ∧ Config.widths.opndW = 32 ∧ Config.widths.wordW = 36 ∧
    Config.widths.wf ∧ Config.sizes.imemBase = 0 ∧
    Config.sizes.imemCap = 128 ∧ Config.sizes.dmemBase = 128 ∧ Config.sizes.dmemCap = 128 ∧
    Config.sizes.dmemTop = 255 ∧ Config.sizes.runawayCeiling = 1000 ∧ Config.sizes.symtabCap = 128 ∧
    Config.ceilingScope = .session) ∧
  ∀ (W : Widths) (sz : Sizes), W.wordW = 4 + W.opndW ∧ sz.dmemBase = sz.imemBase + sz.imemCap ∧
    sz.symtabCap = sz.imemCap ∧
    (∀ a : Nat, inInstrRange a sz = true ↔ sz.imemBase ≤ a ∧ a < sz.imemBase + sz.imemCap) ∧
    (0 < sz.dmemCap → ∀ a : Nat, inDataRange a sz = true ↔
      sz.imemBase + sz.imemCap ≤ a ∧ a < sz.imemBase + sz.imemCap + sz.dmemCap) ∧
    (∀ pc : Target W, inFetchRange pc sz = true ↔
      sz.imemBase ≤ pc.toInt ∧ pc.toInt < sz.imemBase + sz.imemCap) ∧
    ∀ s : State W,
      (∃ t, execAt .add s sz = .next t ∧ (t.v = true ↔
        s.acc.toInt + s.dr.toInt < -2 ^ (W.xlen - 1) ∨ s.acc.toInt + s.dr.toInt > 2 ^ (W.xlen - 1) - 1)) ∧
      (∃ t, execAt .sub s sz = .next t ∧ (t.v = true ↔
        s.acc.toInt - s.dr.toInt < -2 ^ (W.xlen - 1) ∨ s.acc.toInt - s.dr.toInt > 2 ^ (W.xlen - 1) - 1)) ∧
      ∀ x : Opnd W,
        (W.opndW = W.xlen → ∃ t, execAt (.ldi x) s sz = .next t ∧ t.acc.toInt = x.toInt ∧
          t = { s with acc := t.acc, pc := s.pc + 1 }) ∧
        (W.opndW ≤ W.pcW → ∃ t, execAt (.jmp x) s sz = .next t ∧ t.pc.toInt = x.toInt ∧
          t = { s with pc := t.pc })
end

