-- ==== Sys2Proof/Laws/Decode.lean ====
section
/-!
SUPPORT. The fields of an instruction word, and what the decoder does with a word given by its fields, for any
widths. A law whose name ends in `_at` holds for any widths; its namesake says the same at the defaults of R6.
-/
namespace Sys2Proof

variable {W : Widths}

/-- The bound of an instruction word as a number. -/
theorem IWord.toNat_lt_at (w : IWord W) : w.toNat < 2 ^ 4 * 2 ^ W.opndW := by
  rw [← Nat.pow_add]
  exact w.isLt

/-- The bound at the default width, with the width written out for omega. -/
theorem IWord.toNat_lt (w : IWord) : w.toNat < 2 ^ 36 := w.isLt

theorem mkWord_toNat_at (op : OpCode) (opnd : Opnd W) :
    (mkWord op opnd).toNat = op.toNat * 2 ^ W.opndW + opnd.toNat := by
  show (op ++ opnd).toNat = _
  rw [BitVec.toNat_append, ← Nat.shiftLeft_add_eq_or_of_lt opnd.isLt, Nat.shiftLeft_eq]

theorem mkWord_toNat (op : OpCode) (opnd : Opnd) : (mkWord op opnd).toNat = op.toNat * 2 ^ 32 + opnd.toNat :=
  mkWord_toNat_at op opnd

theorem opField_toNat_at (w : IWord W) : (opField w).toNat = w.toNat / 2 ^ W.opndW := by
  rw [opField, BitVec.extractLsb'_toNat, Nat.shiftRight_eq_div_pow]
  exact Nat.mod_eq_of_lt (Nat.div_lt_of_lt_mul (by rw [Nat.mul_comm]; exact IWord.toNat_lt_at w))

theorem opField_toNat (w : IWord) : (opField w).toNat = w.toNat / 2 ^ 32 := opField_toNat_at w

theorem opndField_toNat_at (w : IWord W) : (opndField w).toNat = w.toNat % 2 ^ W.opndW := by
  rw [opndField, BitVec.extractLsb'_toNat, Nat.shiftRight_zero]

theorem opndField_toNat (w : IWord) : (opndField w).toNat = w.toNat % 2 ^ 32 := opndField_toNat_at w

theorem opField_mkWord_at (op : OpCode) (opnd : Opnd W) : opField (mkWord op opnd) = op := by
  apply BitVec.eq_of_toNat_eq
  rw [opField_toNat_at, mkWord_toNat_at, Nat.add_comm, Nat.add_mul_div_right _ _ (Nat.two_pow_pos _),
    Nat.div_eq_of_lt opnd.isLt, Nat.zero_add]

theorem opField_mkWord (op : OpCode) (opnd : Opnd) : opField (mkWord op opnd) = op := opField_mkWord_at op opnd

theorem opndField_mkWord_at (op : OpCode) (opnd : Opnd W) : opndField (mkWord op opnd) = opnd := by
  apply BitVec.eq_of_toNat_eq
  rw [opndField_toNat_at, mkWord_toNat_at, Nat.add_comm, Nat.add_mul_mod_self_right, Nat.mod_eq_of_lt opnd.isLt]

theorem opndField_mkWord (op : OpCode) (opnd : Opnd) : opndField (mkWord op opnd) = opnd :=
  opndField_mkWord_at op opnd

/-- A word is its two fields. -/
theorem mkWord_fields_at (w : IWord W) : mkWord (opField w) (opndField w) = w := by
  apply BitVec.eq_of_toNat_eq
  rw [mkWord_toNat_at, opField_toNat_at, opndField_toNat_at]
  exact Nat.div_add_mod' _ _

theorem mkWord_fields (w : IWord) : mkWord (opField w) (opndField w) = w := mkWord_fields_at w

/-- The decoder on a word given by its fields. -/
theorem decode_mkWord_at (op : OpCode) (opnd : Opnd W) :
    decode (mkWord op opnd) =
      match op.toNat with
      | 0 => .empty
      | 1 => .dec opnd
      | 2 => .ldi opnd
      | 3 => .lda opnd
      | 4 => .str opnd
      | 5 => .xch
      | 6 => .add
      | 7 => .sub
      | 8 => .jmp opnd
      | 9 => .jzs opnd
      | 10 => .jvs opnd
      | 11 => .hlt
      | _ => .reserved op := by
  simp only [decode, opField_mkWord_at, opndField_mkWord_at] <;> rfl

theorem decode_mkWord (op : OpCode) (opnd : Opnd) :
    decode (mkWord op opnd) =
      match op.toNat with
      | 0 => .empty
      | 1 => .dec opnd
      | 2 => .ldi opnd
      | 3 => .lda opnd
      | 4 => .str opnd
      | 5 => .xch
      | 6 => .add
      | 7 => .sub
      | 8 => .jmp opnd
      | 9 => .jzs opnd
      | 10 => .jvs opnd
      | 11 => .hlt
      | _ => .reserved op := decode_mkWord_at op opnd

/-- The empty word decodes to the empty slot (30_encoding.md R62). -/
theorem decode_zero : decode (0 : IWord W) = .empty := by
  have h : (opField (0 : IWord W)).toNat = 0 := by
    rw [opField_toNat_at, show BitVec.toNat (0 : IWord W) = 0 from BitVec.toNat_zero, Nat.zero_div]
  rw [decode, h]
  rfl

/-- A word with a reserved opcode (30_encoding.md R63). -/
theorem decode_mkWord_reserved_at {op : OpCode} (opnd : Opnd W) (h : 12 ≤ op.toNat) :
    decode (mkWord op opnd) = .reserved op := by
  rw [decode_mkWord_at]
  split <;> first | omega | rfl

theorem decode_mkWord_reserved {op : OpCode} (opnd : Opnd) (h : 12 ≤ op.toNat) :
    decode (mkWord op opnd) = .reserved op := decode_mkWord_reserved_at opnd h

end Sys2Proof
end

