-- ==== Sys2Proof/Laws/Memory.lean ====
section
/-!
SUPPORT. The laws of a memory in canonical form: reading after a write, and that every write keeps the form.
-/
namespace Sys2Proof.Machine

variable {w : Nat}

theorem Memory.wf_nil : Memory.wf ([] : Memory w) := by simp [Memory.wf]

/-- Every entry after a write is the one written or an old one. -/
theorem Memory.mem_write {m : Memory w} {a : Nat} {x : BitVec w} {p : Nat × BitVec w}
    (h : p ∈ Memory.write m a x) : p = (a, x) ∨ p ∈ m := by
  induction m with
  | nil =>
    unfold Memory.write at h
    split at h <;> simp_all
  | cons q m ih =>
    obtain ⟨b, y⟩ := q
    unfold Memory.write at h
    split at h
    · split at h <;> simp_all
    · split at h
      · split at h
        · exact .inr (List.mem_cons_of_mem _ h)
        · rcases List.mem_cons.1 h with h | h
          · exact .inl h
          · exact .inr (List.mem_cons_of_mem _ h)
      · rcases List.mem_cons.1 h with h | h
        · exact .inr (h ▸ List.mem_cons_self)
        · exact (ih h).imp_right (List.mem_cons_of_mem _)

theorem Memory.wf_tail {q : Nat × BitVec w} {m : Memory w} (h : Memory.wf (q :: m)) : Memory.wf m :=
  ⟨(List.pairwise_cons.1 h.1).2, fun p hp => h.2 p (List.mem_cons_of_mem _ hp)⟩

/-- Every write keeps the canonical form. -/
theorem Memory.wf_write {m : Memory w} (h : Memory.wf m) (a : Nat) (x : BitVec w) :
    Memory.wf (Memory.write m a x) := by
  induction m with
  | nil =>
    unfold Memory.write
    split
    · exact h
    · rename_i hx
      exact ⟨List.pairwise_singleton _ _, fun p hp => by rw [List.mem_singleton.1 hp]; exact hx⟩
  | cons q m ih =>
    obtain ⟨b, y⟩ := q
    have hb := (List.pairwise_cons.1 h.1).1
    unfold Memory.write
    split
    · rename_i hab
      split
      · exact h
      · rename_i hx
        refine ⟨List.pairwise_cons.2 ⟨fun p hp => ?_, h.1⟩, fun p hp => ?_⟩
        · rcases List.mem_cons.1 hp with rfl | hp
          · exact hab
          · exact lt_trans hab (hb p hp)
        · rcases List.mem_cons.1 hp with rfl | hp
          · exact hx
          · exact h.2 p hp
    · rename_i hab
      split
      · rename_i hab'
        subst hab'
        split
        · exact Memory.wf_tail h
        · rename_i hx
          refine ⟨List.pairwise_cons.2 ⟨hb, (Memory.wf_tail h).1⟩, fun p hp => ?_⟩
          rcases List.mem_cons.1 hp with rfl | hp
          · exact hx
          · exact h.2 p (List.mem_cons_of_mem _ hp)
      · rename_i hne
        have ht := ih (Memory.wf_tail h)
        refine ⟨List.pairwise_cons.2 ⟨fun p hp => ?_, ht.1⟩, fun p hp => ?_⟩
        · rcases Memory.mem_write hp with rfl | hp
          · simp only; omega
          · exact hb p hp
        · rcases List.mem_cons.1 hp with rfl | hp
          · exact h.2 _ List.mem_cons_self
          · exact ht.2 p hp

/-- An address below every entry reads as 0. -/
theorem Memory.read_of_lt {m : Memory w} {a : Nat} (h : ∀ p ∈ m, a < p.1) : Memory.read m a = 0 := by
  cases m with
  | nil => rfl
  | cons q m =>
    obtain ⟨b, y⟩ := q
    have : a < b := h (b, y) List.mem_cons_self
    simp [Memory.read, this, Nat.ne_of_lt this]

/-- An address no entry has reads as 0. -/
theorem Memory.read_of_not_mem {m : Memory w} {a : Nat} (h : ∀ p ∈ m, p.1 ≠ a) : Memory.read m a = 0 := by
  induction m with
  | nil => rfl
  | cons q m ih =>
    obtain ⟨b, y⟩ := q
    have hb : a ≠ b := fun e => h (b, y) List.mem_cons_self e.symm
    simp only [Memory.read, hb, if_false]
    split
    · rfl
    · exact ih fun p hp => h p (List.mem_cons_of_mem _ hp)

/-- Reading after a write: the word written at its address, the old word elsewhere. -/
theorem Memory.read_write {m : Memory w} (h : Memory.wf m) (a : Nat) (x : BitVec w) (k : Nat) :
    Memory.read (Memory.write m a x) k = if k = a then x else Memory.read m k := by
  induction m with
  | nil =>
    unfold Memory.write
    split
    · simp [Memory.read, *]
    · simp [Memory.read]
  | cons q m ih =>
    obtain ⟨b, y⟩ := q
    have hb := (List.pairwise_cons.1 h.1).1
    have hlow : ∀ c, c ≤ b → Memory.read m c = 0 := fun c hc =>
      Memory.read_of_lt fun p hp => lt_of_le_of_lt hc (hb p hp)
    have ih := ih (Memory.wf_tail h)
    unfold Memory.write
    split
    · rename_i hab
      split
      · rename_i hx
        split
        · rename_i hk; subst hk; simp [Memory.read, hab, Nat.ne_of_lt hab, hx]
        · rfl
      · simp only [Memory.read]
        repeat' split
        all_goals first | rfl | omega
    · split
      · rename_i hab; subst hab
        split
        · rename_i hx
          by_cases hk : k = a
          · subst hk; simp [hlow k (Nat.le_refl _), hx]
          · simp only [Memory.read, hk, if_false]
            split
            · exact hlow k (by omega)
            · rfl
        · simp only [Memory.read]
          repeat' split
          all_goals rfl
      · simp only [Memory.read, ih]
        repeat' split
        all_goals first | rfl | omega

/-- Memories in canonical form that read alike are equal data. -/
theorem Memory.eq_of_read_eq {m n : Memory w} (hm : Memory.wf m) (hn : Memory.wf n)
    (h : ∀ a, Memory.read m a = Memory.read n a) : m = n := by
  have hlow : ∀ {b : Nat} {y : BitVec w} {m : Memory w}, Memory.wf ((b, y) :: m) →
      ∀ c, c ≤ b → Memory.read m c = 0 := fun h c hc =>
    Memory.read_of_lt fun p hp => lt_of_le_of_lt hc ((List.pairwise_cons.1 h.1).1 p hp)
  have hhead : ∀ {b : Nat} {y : BitVec w} {m : Memory w}, Memory.wf ((b, y) :: m) →
      ∀ c, Memory.read ((b, y) :: m) c = if c = b then y else Memory.read m c := fun {b y m} h c => by
    simp only [Memory.read]
    split
    · rfl
    · split
      · exact (hlow h c (by omega)).symm
      · rfl
  induction m generalizing n with
  | nil =>
    cases n with
    | nil => rfl
    | cons q n =>
      have := h q.1
      rw [hhead hn] at this
      exact absurd this.symm (by simpa [Memory.read] using hn.2 q List.mem_cons_self)
  | cons p m ih =>
    obtain ⟨b, y⟩ := p
    have hy : y ≠ 0 := hm.2 (b, y) List.mem_cons_self
    cases n with
    | nil =>
      have := h b
      rw [hhead hm] at this
      simp [Memory.read] at this
      exact absurd this hy
    | cons q n =>
      obtain ⟨c, z⟩ := q
      have hz : z ≠ 0 := hn.2 (c, z) List.mem_cons_self
      have hbc : b = c := by
        have h1 := h b
        have h2 := h c
        rw [hhead hm, hhead hn] at h1 h2
        by_contra hne
        rcases Nat.lt_or_gt_of_ne hne with hlt | hlt
        · rw [if_pos rfl, if_neg hne, hlow hn b (by omega)] at h1; exact hy h1
        · rw [if_neg (Ne.symm hne), if_pos rfl, hlow hm c (by omega)] at h2; exact hz h2.symm
      subst hbc
      have hyz : y = z := by simpa [Memory.read] using h b
      subst hyz
      have : m = n := ih (Memory.wf_tail hm) (Memory.wf_tail hn) fun a => by
        have ha := h a
        rw [hhead hm, hhead hn] at ha
        by_cases hab : a = b
        · rw [hlow hm a (by omega), hlow hn a (by omega)]
        · simpa [hab] using ha
      rw [this]

end Sys2Proof.Machine
end

