-- ==== Sys2Proof/Laws/State.lean ====
section
/-!
SUPPORT. One lemma per field per update of State, and one per field of the state after reset, true by rfl, so that
no later proof unfolds a record update.
-/
namespace Sys2Proof.Machine

variable {W : Widths} (s : State W)

section
variable (x : Word W)
@[simp] theorem State.setAcc_acc : (s.setAcc x).acc = x := rfl
@[simp] theorem State.setAcc_dr : (s.setAcc x).dr = s.dr := rfl
@[simp] theorem State.setAcc_z : (s.setAcc x).z = s.z := rfl
@[simp] theorem State.setAcc_v : (s.setAcc x).v = s.v := rfl
@[simp] theorem State.setAcc_pc : (s.setAcc x).pc = s.pc := rfl
@[simp] theorem State.setAcc_halted : (s.setAcc x).halted = s.halted := rfl
@[simp] theorem State.setAcc_imem : (s.setAcc x).imem = s.imem := rfl
@[simp] theorem State.setAcc_dmem : (s.setAcc x).dmem = s.dmem := rfl
@[simp] theorem State.setAcc_symtab : (s.setAcc x).symtab = s.symtab := rfl
@[simp] theorem State.setAcc_execCount : (s.setAcc x).execCount = s.execCount := rfl
@[simp] theorem State.setAcc_busy : (s.setAcc x).busy = s.busy := rfl
@[simp] theorem State.setAcc_loading : (s.setAcc x).loading = s.loading := rfl
@[simp] theorem State.setAcc_runaway : (s.setAcc x).runaway = s.runaway := rfl
@[simp] theorem State.setAcc_host : (s.setAcc x).host = s.host := rfl
end

section
variable (x : Word W)
@[simp] theorem State.setDr_acc : (s.setDr x).acc = s.acc := rfl
@[simp] theorem State.setDr_dr : (s.setDr x).dr = x := rfl
@[simp] theorem State.setDr_z : (s.setDr x).z = s.z := rfl
@[simp] theorem State.setDr_v : (s.setDr x).v = s.v := rfl
@[simp] theorem State.setDr_pc : (s.setDr x).pc = s.pc := rfl
@[simp] theorem State.setDr_halted : (s.setDr x).halted = s.halted := rfl
@[simp] theorem State.setDr_imem : (s.setDr x).imem = s.imem := rfl
@[simp] theorem State.setDr_dmem : (s.setDr x).dmem = s.dmem := rfl
@[simp] theorem State.setDr_symtab : (s.setDr x).symtab = s.symtab := rfl
@[simp] theorem State.setDr_execCount : (s.setDr x).execCount = s.execCount := rfl
@[simp] theorem State.setDr_busy : (s.setDr x).busy = s.busy := rfl
@[simp] theorem State.setDr_loading : (s.setDr x).loading = s.loading := rfl
@[simp] theorem State.setDr_runaway : (s.setDr x).runaway = s.runaway := rfl
@[simp] theorem State.setDr_host : (s.setDr x).host = s.host := rfl
end

section
variable (x : Bool)
@[simp] theorem State.setZ_acc : (s.setZ x).acc = s.acc := rfl
@[simp] theorem State.setZ_dr : (s.setZ x).dr = s.dr := rfl
@[simp] theorem State.setZ_z : (s.setZ x).z = x := rfl
@[simp] theorem State.setZ_v : (s.setZ x).v = s.v := rfl
@[simp] theorem State.setZ_pc : (s.setZ x).pc = s.pc := rfl
@[simp] theorem State.setZ_halted : (s.setZ x).halted = s.halted := rfl
@[simp] theorem State.setZ_imem : (s.setZ x).imem = s.imem := rfl
@[simp] theorem State.setZ_dmem : (s.setZ x).dmem = s.dmem := rfl
@[simp] theorem State.setZ_symtab : (s.setZ x).symtab = s.symtab := rfl
@[simp] theorem State.setZ_execCount : (s.setZ x).execCount = s.execCount := rfl
@[simp] theorem State.setZ_busy : (s.setZ x).busy = s.busy := rfl
@[simp] theorem State.setZ_loading : (s.setZ x).loading = s.loading := rfl
@[simp] theorem State.setZ_runaway : (s.setZ x).runaway = s.runaway := rfl
@[simp] theorem State.setZ_host : (s.setZ x).host = s.host := rfl
end

section
variable (x : Bool)
@[simp] theorem State.setV_acc : (s.setV x).acc = s.acc := rfl
@[simp] theorem State.setV_dr : (s.setV x).dr = s.dr := rfl
@[simp] theorem State.setV_z : (s.setV x).z = s.z := rfl
@[simp] theorem State.setV_v : (s.setV x).v = x := rfl
@[simp] theorem State.setV_pc : (s.setV x).pc = s.pc := rfl
@[simp] theorem State.setV_halted : (s.setV x).halted = s.halted := rfl
@[simp] theorem State.setV_imem : (s.setV x).imem = s.imem := rfl
@[simp] theorem State.setV_dmem : (s.setV x).dmem = s.dmem := rfl
@[simp] theorem State.setV_symtab : (s.setV x).symtab = s.symtab := rfl
@[simp] theorem State.setV_execCount : (s.setV x).execCount = s.execCount := rfl
@[simp] theorem State.setV_busy : (s.setV x).busy = s.busy := rfl
@[simp] theorem State.setV_loading : (s.setV x).loading = s.loading := rfl
@[simp] theorem State.setV_runaway : (s.setV x).runaway = s.runaway := rfl
@[simp] theorem State.setV_host : (s.setV x).host = s.host := rfl
end

section
variable (x : Target W)
@[simp] theorem State.setPc_acc : (s.setPc x).acc = s.acc := rfl
@[simp] theorem State.setPc_dr : (s.setPc x).dr = s.dr := rfl
@[simp] theorem State.setPc_z : (s.setPc x).z = s.z := rfl
@[simp] theorem State.setPc_v : (s.setPc x).v = s.v := rfl
@[simp] theorem State.setPc_pc : (s.setPc x).pc = x := rfl
@[simp] theorem State.setPc_halted : (s.setPc x).halted = s.halted := rfl
@[simp] theorem State.setPc_imem : (s.setPc x).imem = s.imem := rfl
@[simp] theorem State.setPc_dmem : (s.setPc x).dmem = s.dmem := rfl
@[simp] theorem State.setPc_symtab : (s.setPc x).symtab = s.symtab := rfl
@[simp] theorem State.setPc_execCount : (s.setPc x).execCount = s.execCount := rfl
@[simp] theorem State.setPc_busy : (s.setPc x).busy = s.busy := rfl
@[simp] theorem State.setPc_loading : (s.setPc x).loading = s.loading := rfl
@[simp] theorem State.setPc_runaway : (s.setPc x).runaway = s.runaway := rfl
@[simp] theorem State.setPc_host : (s.setPc x).host = s.host := rfl
end

section
variable (x : Bool)
@[simp] theorem State.setHalted_acc : (s.setHalted x).acc = s.acc := rfl
@[simp] theorem State.setHalted_dr : (s.setHalted x).dr = s.dr := rfl
@[simp] theorem State.setHalted_z : (s.setHalted x).z = s.z := rfl
@[simp] theorem State.setHalted_v : (s.setHalted x).v = s.v := rfl
@[simp] theorem State.setHalted_pc : (s.setHalted x).pc = s.pc := rfl
@[simp] theorem State.setHalted_halted : (s.setHalted x).halted = x := rfl
@[simp] theorem State.setHalted_imem : (s.setHalted x).imem = s.imem := rfl
@[simp] theorem State.setHalted_dmem : (s.setHalted x).dmem = s.dmem := rfl
@[simp] theorem State.setHalted_symtab : (s.setHalted x).symtab = s.symtab := rfl
@[simp] theorem State.setHalted_execCount : (s.setHalted x).execCount = s.execCount := rfl
@[simp] theorem State.setHalted_busy : (s.setHalted x).busy = s.busy := rfl
@[simp] theorem State.setHalted_loading : (s.setHalted x).loading = s.loading := rfl
@[simp] theorem State.setHalted_runaway : (s.setHalted x).runaway = s.runaway := rfl
@[simp] theorem State.setHalted_host : (s.setHalted x).host = s.host := rfl
end

section
variable (x : Memory W.wordW)
@[simp] theorem State.setImem_acc : (s.setImem x).acc = s.acc := rfl
@[simp] theorem State.setImem_dr : (s.setImem x).dr = s.dr := rfl
@[simp] theorem State.setImem_z : (s.setImem x).z = s.z := rfl
@[simp] theorem State.setImem_v : (s.setImem x).v = s.v := rfl
@[simp] theorem State.setImem_pc : (s.setImem x).pc = s.pc := rfl
@[simp] theorem State.setImem_halted : (s.setImem x).halted = s.halted := rfl
@[simp] theorem State.setImem_imem : (s.setImem x).imem = x := rfl
@[simp] theorem State.setImem_dmem : (s.setImem x).dmem = s.dmem := rfl
@[simp] theorem State.setImem_symtab : (s.setImem x).symtab = s.symtab := rfl
@[simp] theorem State.setImem_execCount : (s.setImem x).execCount = s.execCount := rfl
@[simp] theorem State.setImem_busy : (s.setImem x).busy = s.busy := rfl
@[simp] theorem State.setImem_loading : (s.setImem x).loading = s.loading := rfl
@[simp] theorem State.setImem_runaway : (s.setImem x).runaway = s.runaway := rfl
@[simp] theorem State.setImem_host : (s.setImem x).host = s.host := rfl
end

section
variable (x : Memory W.xlen)
@[simp] theorem State.setDmem_acc : (s.setDmem x).acc = s.acc := rfl
@[simp] theorem State.setDmem_dr : (s.setDmem x).dr = s.dr := rfl
@[simp] theorem State.setDmem_z : (s.setDmem x).z = s.z := rfl
@[simp] theorem State.setDmem_v : (s.setDmem x).v = s.v := rfl
@[simp] theorem State.setDmem_pc : (s.setDmem x).pc = s.pc := rfl
@[simp] theorem State.setDmem_halted : (s.setDmem x).halted = s.halted := rfl
@[simp] theorem State.setDmem_imem : (s.setDmem x).imem = s.imem := rfl
@[simp] theorem State.setDmem_dmem : (s.setDmem x).dmem = x := rfl
@[simp] theorem State.setDmem_symtab : (s.setDmem x).symtab = s.symtab := rfl
@[simp] theorem State.setDmem_execCount : (s.setDmem x).execCount = s.execCount := rfl
@[simp] theorem State.setDmem_busy : (s.setDmem x).busy = s.busy := rfl
@[simp] theorem State.setDmem_loading : (s.setDmem x).loading = s.loading := rfl
@[simp] theorem State.setDmem_runaway : (s.setDmem x).runaway = s.runaway := rfl
@[simp] theorem State.setDmem_host : (s.setDmem x).host = s.host := rfl
end

section
variable (x : List (SymId W))
@[simp] theorem State.setSymtab_acc : (s.setSymtab x).acc = s.acc := rfl
@[simp] theorem State.setSymtab_dr : (s.setSymtab x).dr = s.dr := rfl
@[simp] theorem State.setSymtab_z : (s.setSymtab x).z = s.z := rfl
@[simp] theorem State.setSymtab_v : (s.setSymtab x).v = s.v := rfl
@[simp] theorem State.setSymtab_pc : (s.setSymtab x).pc = s.pc := rfl
@[simp] theorem State.setSymtab_halted : (s.setSymtab x).halted = s.halted := rfl
@[simp] theorem State.setSymtab_imem : (s.setSymtab x).imem = s.imem := rfl
@[simp] theorem State.setSymtab_dmem : (s.setSymtab x).dmem = s.dmem := rfl
@[simp] theorem State.setSymtab_symtab : (s.setSymtab x).symtab = x := rfl
@[simp] theorem State.setSymtab_execCount : (s.setSymtab x).execCount = s.execCount := rfl
@[simp] theorem State.setSymtab_busy : (s.setSymtab x).busy = s.busy := rfl
@[simp] theorem State.setSymtab_loading : (s.setSymtab x).loading = s.loading := rfl
@[simp] theorem State.setSymtab_runaway : (s.setSymtab x).runaway = s.runaway := rfl
@[simp] theorem State.setSymtab_host : (s.setSymtab x).host = s.host := rfl
end

section
variable (x : BitVec 32)
@[simp] theorem State.setExecCount_acc : (s.setExecCount x).acc = s.acc := rfl
@[simp] theorem State.setExecCount_dr : (s.setExecCount x).dr = s.dr := rfl
@[simp] theorem State.setExecCount_z : (s.setExecCount x).z = s.z := rfl
@[simp] theorem State.setExecCount_v : (s.setExecCount x).v = s.v := rfl
@[simp] theorem State.setExecCount_pc : (s.setExecCount x).pc = s.pc := rfl
@[simp] theorem State.setExecCount_halted : (s.setExecCount x).halted = s.halted := rfl
@[simp] theorem State.setExecCount_imem : (s.setExecCount x).imem = s.imem := rfl
@[simp] theorem State.setExecCount_dmem : (s.setExecCount x).dmem = s.dmem := rfl
@[simp] theorem State.setExecCount_symtab : (s.setExecCount x).symtab = s.symtab := rfl
@[simp] theorem State.setExecCount_execCount : (s.setExecCount x).execCount = x := rfl
@[simp] theorem State.setExecCount_busy : (s.setExecCount x).busy = s.busy := rfl
@[simp] theorem State.setExecCount_loading : (s.setExecCount x).loading = s.loading := rfl
@[simp] theorem State.setExecCount_runaway : (s.setExecCount x).runaway = s.runaway := rfl
@[simp] theorem State.setExecCount_host : (s.setExecCount x).host = s.host := rfl
end

section
variable (x : Bool)
@[simp] theorem State.setBusy_acc : (s.setBusy x).acc = s.acc := rfl
@[simp] theorem State.setBusy_dr : (s.setBusy x).dr = s.dr := rfl
@[simp] theorem State.setBusy_z : (s.setBusy x).z = s.z := rfl
@[simp] theorem State.setBusy_v : (s.setBusy x).v = s.v := rfl
@[simp] theorem State.setBusy_pc : (s.setBusy x).pc = s.pc := rfl
@[simp] theorem State.setBusy_halted : (s.setBusy x).halted = s.halted := rfl
@[simp] theorem State.setBusy_imem : (s.setBusy x).imem = s.imem := rfl
@[simp] theorem State.setBusy_dmem : (s.setBusy x).dmem = s.dmem := rfl
@[simp] theorem State.setBusy_symtab : (s.setBusy x).symtab = s.symtab := rfl
@[simp] theorem State.setBusy_execCount : (s.setBusy x).execCount = s.execCount := rfl
@[simp] theorem State.setBusy_busy : (s.setBusy x).busy = x := rfl
@[simp] theorem State.setBusy_loading : (s.setBusy x).loading = s.loading := rfl
@[simp] theorem State.setBusy_runaway : (s.setBusy x).runaway = s.runaway := rfl
@[simp] theorem State.setBusy_host : (s.setBusy x).host = s.host := rfl
end

section
variable (x : Bool)
@[simp] theorem State.setLoading_acc : (s.setLoading x).acc = s.acc := rfl
@[simp] theorem State.setLoading_dr : (s.setLoading x).dr = s.dr := rfl
@[simp] theorem State.setLoading_z : (s.setLoading x).z = s.z := rfl
@[simp] theorem State.setLoading_v : (s.setLoading x).v = s.v := rfl
@[simp] theorem State.setLoading_pc : (s.setLoading x).pc = s.pc := rfl
@[simp] theorem State.setLoading_halted : (s.setLoading x).halted = s.halted := rfl
@[simp] theorem State.setLoading_imem : (s.setLoading x).imem = s.imem := rfl
@[simp] theorem State.setLoading_dmem : (s.setLoading x).dmem = s.dmem := rfl
@[simp] theorem State.setLoading_symtab : (s.setLoading x).symtab = s.symtab := rfl
@[simp] theorem State.setLoading_execCount : (s.setLoading x).execCount = s.execCount := rfl
@[simp] theorem State.setLoading_busy : (s.setLoading x).busy = s.busy := rfl
@[simp] theorem State.setLoading_loading : (s.setLoading x).loading = x := rfl
@[simp] theorem State.setLoading_runaway : (s.setLoading x).runaway = s.runaway := rfl
@[simp] theorem State.setLoading_host : (s.setLoading x).host = s.host := rfl
end

section
variable (x : Bool)
@[simp] theorem State.setRunaway_acc : (s.setRunaway x).acc = s.acc := rfl
@[simp] theorem State.setRunaway_dr : (s.setRunaway x).dr = s.dr := rfl
@[simp] theorem State.setRunaway_z : (s.setRunaway x).z = s.z := rfl
@[simp] theorem State.setRunaway_v : (s.setRunaway x).v = s.v := rfl
@[simp] theorem State.setRunaway_pc : (s.setRunaway x).pc = s.pc := rfl
@[simp] theorem State.setRunaway_halted : (s.setRunaway x).halted = s.halted := rfl
@[simp] theorem State.setRunaway_imem : (s.setRunaway x).imem = s.imem := rfl
@[simp] theorem State.setRunaway_dmem : (s.setRunaway x).dmem = s.dmem := rfl
@[simp] theorem State.setRunaway_symtab : (s.setRunaway x).symtab = s.symtab := rfl
@[simp] theorem State.setRunaway_execCount : (s.setRunaway x).execCount = s.execCount := rfl
@[simp] theorem State.setRunaway_busy : (s.setRunaway x).busy = s.busy := rfl
@[simp] theorem State.setRunaway_loading : (s.setRunaway x).loading = s.loading := rfl
@[simp] theorem State.setRunaway_runaway : (s.setRunaway x).runaway = x := rfl
@[simp] theorem State.setRunaway_host : (s.setRunaway x).host = s.host := rfl
end

section
variable (x : List (HostInput W))
@[simp] theorem State.setHost_acc : (s.setHost x).acc = s.acc := rfl
@[simp] theorem State.setHost_dr : (s.setHost x).dr = s.dr := rfl
@[simp] theorem State.setHost_z : (s.setHost x).z = s.z := rfl
@[simp] theorem State.setHost_v : (s.setHost x).v = s.v := rfl
@[simp] theorem State.setHost_pc : (s.setHost x).pc = s.pc := rfl
@[simp] theorem State.setHost_halted : (s.setHost x).halted = s.halted := rfl
@[simp] theorem State.setHost_imem : (s.setHost x).imem = s.imem := rfl
@[simp] theorem State.setHost_dmem : (s.setHost x).dmem = s.dmem := rfl
@[simp] theorem State.setHost_symtab : (s.setHost x).symtab = s.symtab := rfl
@[simp] theorem State.setHost_execCount : (s.setHost x).execCount = s.execCount := rfl
@[simp] theorem State.setHost_busy : (s.setHost x).busy = s.busy := rfl
@[simp] theorem State.setHost_loading : (s.setHost x).loading = s.loading := rfl
@[simp] theorem State.setHost_runaway : (s.setHost x).runaway = s.runaway := rfl
@[simp] theorem State.setHost_host : (s.setHost x).host = x := rfl
end

@[simp] theorem State.initial_acc : (State.initial : State W).acc = 0 := rfl
@[simp] theorem State.initial_dr : (State.initial : State W).dr = 0 := rfl
@[simp] theorem State.initial_z : (State.initial : State W).z = false := rfl
@[simp] theorem State.initial_v : (State.initial : State W).v = false := rfl
@[simp] theorem State.initial_pc : (State.initial : State W).pc = 0 := rfl
@[simp] theorem State.initial_halted : (State.initial : State W).halted = false := rfl
@[simp] theorem State.initial_imem : (State.initial : State W).imem = [] := rfl
@[simp] theorem State.initial_dmem : (State.initial : State W).dmem = [] := rfl
@[simp] theorem State.initial_symtab : (State.initial : State W).symtab = [] := rfl
@[simp] theorem State.initial_execCount : (State.initial : State W).execCount = 0 := rfl
@[simp] theorem State.initial_busy : (State.initial : State W).busy = false := rfl
@[simp] theorem State.initial_loading : (State.initial : State W).loading = false := rfl
@[simp] theorem State.initial_runaway : (State.initial : State W).runaway = false := rfl
@[simp] theorem State.initial_host : (State.initial : State W).host = [] := rfl

end Sys2Proof.Machine
end

