-- ==== Sys2Proof/Laws/Ops.lean ====
section
/-!
SUPPORT. One lemma for each shared operation, saying what it can do; the provers cite these instead of unfolding.
-/
namespace Sys2Proof.Machine

variable {W : Widths}

/-! A law whose name ends in `_at` holds for any widths and sizes; its namesake says the same at the defaults of R6. -/

theorem inDataRange_iff_at {a : Nat} {sz : Sizes} : inDataRange a sz = true ↔ sz.dmemBase ≤ a ∧ a ≤ sz.dmemTop := by
  simp [inDataRange]

theorem inDataRange_iff {a : Nat} : inDataRange a = true ↔ 128 ≤ a ∧ a ≤ 255 := inDataRange_iff_at

theorem inInstrRange_iff_at {a : Int} {sz : Sizes} : inInstrRange a sz = true ↔ sz.imemBase ≤ a ∧ a < sz.imemBase + sz.imemCap := by
  simp [inInstrRange]

theorem inInstrRange_iff {a : Int} : inInstrRange a = true ↔ 0 ≤ a ∧ a ≤ 127 := by
  rw [inInstrRange_iff_at]
  show (0 : Nat) ≤ a ∧ a < (0 : Nat) + (128 : Nat) ↔ _
  omega

theorem inFetchRange_iff {p : Target} : inFetchRange p = true ↔ 0 ≤ p.toInt ∧ p.toInt ≤ 127 := inInstrRange_iff

/-- Adding one to PC as a signed number is adding one to the pattern. -/
theorem wrap_succ {n : Nat} (p : BitVec n) : wrap (p.toInt + 1) = p + 1 := by
  rw [wrap, BitVec.ofInt_add, BitVec.ofInt_toInt]
  rfl

/-- Reading a pattern as a signed number and wrapping it to the same width changes nothing. -/
theorem wrap_toInt_self {n : Nat} (x : BitVec n) : wrap x.toInt = x := BitVec.ofInt_toInt

/-- A literal keeps its value where a register is as wide as an operand (30_encoding.md R58). -/
theorem literal_toInt (h : W.opndW = W.xlen) (n : Opnd W) : (literal n).toInt = n.toInt := by
  rw [literal, ← h, wrap_toInt_self]

/-- Every target is a PC value where PC is at least as wide as an operand (10_state.md R18). -/
theorem target_toInt (h : W.opndW ≤ W.pcW) (addr : Opnd W) : (target addr).toInt = addr.toInt := by
  show (addr.signExtend W.pcW).toInt = _
  rw [BitVec.toInt_signExtend, Nat.min_eq_right h]
  exact BitVec.toInt_bmod_cancel addr

/-- At the default widths a literal is the operand field unchanged (30_encoding.md R58). -/
@[simp] theorem literal_eq (n : Opnd) : literal n = n := wrap_toInt_self _

/-- At the default widths a target is the operand field unchanged (42_control_transfer.md R88). -/
@[simp] theorem target_eq (addr : Opnd) : target addr = addr := wrap_toInt_self _

/-- The range of a 32-bit pattern read as a number. -/
theorem Word.toInt_bounds (x : BitVec 32) : -2147483648 ≤ x.toInt ∧ x.toInt ≤ 2147483647 := by
  have h1 := BitVec.toInt_lt (x := x)
  have h2 := BitVec.le_toInt (x := x)
  norm_num at h1 h2
  omega

theorem wrap_toNat (r : Int) : (wrap r : Word).toNat = (r % 2 ^ 32).toNat := BitVec.toNat_ofInt r

theorem wrap_toInt (r : Int) : (wrap r : Word).toInt = Int.bmod r (2 ^ 32) := BitVec.toInt_ofInt r

theorem retire_eq (s : State W) (advance : Bool) :
    retire s advance = .next (s.setPc (if advance then wrap (s.pc.toInt + 1) else s.pc)) := by
  cases advance <;> rfl

/-- A symbol already in the table keeps its address, and nothing changes. -/
theorem resolve_of_idxOf_some_at {sym : SymId W} {s : State W} {i : Nat} (h : s.symtab.idxOf? sym = some i)
    (sz : Sizes) : resolve sym s sz = (sz.dmemBase + i, s) := by
  simp [resolve, h]

theorem resolve_of_idxOf_some {sym : SymId W} {s : State W} {i : Nat} (h : s.symtab.idxOf? sym = some i) :
    resolve sym s = (128 + i, s) := resolve_of_idxOf_some_at h Config.sizes

/-- A symbol not in the table is allocated at its end. -/
theorem resolve_of_not_mem_at {sym : SymId W} {s : State W} (h : sym ∉ s.symtab) (sz : Sizes) :
    resolve sym s sz = (sz.dmemBase + s.symtab.length, s.setSymtab (s.symtab ++ [sym])) := by
  simp [resolve, List.idxOf?_eq_none_iff.2 h]

theorem resolve_of_not_mem {sym : SymId W} {s : State W} (h : sym ∉ s.symtab) :
    resolve sym s = (128 + s.symtab.length, s.setSymtab (s.symtab ++ [sym])) :=
  resolve_of_not_mem_at h Config.sizes

/-- What Resolve can do: find the symbol at an index of the table, or allocate the next address. -/
theorem resolve_cases_at (sym : SymId W) (s : State W) (sz : Sizes) :
    (∃ i, ∃ h : i < s.symtab.length, s.symtab[i] = sym ∧ resolve sym s sz = (sz.dmemBase + i, s)) ∨
    (sym ∉ s.symtab ∧
      resolve sym s sz = (sz.dmemBase + s.symtab.length, s.setSymtab (s.symtab ++ [sym]))) := by
  cases h : s.symtab.idxOf? sym with
  | some i =>
    obtain ⟨hi, he, -⟩ := List.idxOf?_eq_some_iff.1 h
    exact .inl ⟨i, hi, he, resolve_of_idxOf_some_at h sz⟩
  | none =>
    have hn := List.idxOf?_eq_none_iff.1 h
    exact .inr ⟨hn, resolve_of_not_mem_at hn sz⟩

theorem resolve_cases (sym : SymId W) (s : State W) :
    (∃ i, ∃ h : i < s.symtab.length, s.symtab[i] = sym ∧ resolve sym s = (128 + i, s)) ∨
    (sym ∉ s.symtab ∧
      resolve sym s = (128 + s.symtab.length, s.setSymtab (s.symtab ++ [sym]))) :=
  resolve_cases_at sym s Config.sizes

/-- Resolve reads SYMTAB and writes nothing else. -/
theorem resolve_frame (sym : SymId W) (s : State W) (sz : Sizes := Config.sizes) :
    (resolve sym s sz).2 = s.setSymtab (resolve sym s sz).2.symtab := by
  rcases resolve_cases_at sym s sz with ⟨i, -, -, h⟩ | ⟨-, h⟩ <;> rw [h] <;> rfl

theorem resolve_base_le_at (sym : SymId W) (s : State W) (sz : Sizes) : sz.dmemBase ≤ (resolve sym s sz).1 := by
  rcases resolve_cases_at sym s sz with ⟨i, -, -, h⟩ | ⟨-, h⟩ <;> rw [h] <;> simp

theorem resolve_base_le (sym : SymId W) (s : State W) : 128 ≤ (resolve sym s).1 := resolve_base_le_at sym s Config.sizes

/-- Resolve depends on SYMTAB alone. -/
theorem resolve_congr (sym : SymId W) {s t : State W} (h : t.symtab = s.symtab) (sz : Sizes := Config.sizes) :
    (resolve sym t sz).1 = (resolve sym s sz).1 ∧ (resolve sym t sz).2.symtab = (resolve sym s sz).2.symtab := by
  unfold resolve
  rw [h]
  cases s.symtab.idxOf? sym <;> simp [h]

theorem loadAccIfInRange_eq (a : Nat) (s : State W) {sz : Sizes} :
    loadAccIfInRange a s sz = s.setAcc (if inDataRange a sz then Memory.read s.dmem a else s.acc) := by
  unfold loadAccIfInRange memRead
  split <;> rfl

theorem storeIfInRange_eq (a : Nat) (x : Word W) (s : State W) {sz : Sizes} :
    storeIfInRange a x s sz = s.setDmem (if inDataRange a sz then Memory.write s.dmem a x else s.dmem) := by
  unfold storeIfInRange memWrite
  split <;> rfl

/-- What the store of DEC and STR does to every word of data memory. -/
theorem storeIfInRange_read {a : Nat} {x : Word W} {s : State W} (h : Memory.wf s.dmem) (k : Nat)
    {sz : Sizes} : Memory.read (storeIfInRange a x s sz).dmem k =
      if k = a ∧ inDataRange a sz = true then x else Memory.read s.dmem k := by
  rw [storeIfInRange_eq]
  cases inDataRange a sz
  · simp
  · simp [Memory.read_write h]

theorem storeIfInRange_wf {a : Nat} {x : Word W} {s : State W} (h : Memory.wf s.dmem)
    {sz : Sizes} : Memory.wf (storeIfInRange a x s sz).dmem := by
  rw [storeIfInRange_eq]
  cases inDataRange a sz
  · exact h
  · exact Memory.wf_write h _ _

/-- What DEC does, for any sizes. -/
theorem execDec_eq (sym : SymId W) (s : State W) {sz : Sizes} :
    execDec sym s sz = .next { s with
      symtab := (resolve sym s sz).2.symtab
      dmem := if inDataRange (resolve sym s sz).1 sz then Memory.write s.dmem (resolve sym s sz).1 0 else s.dmem
      pc := wrap (s.pc.toInt + 1) } := by
  simp only [execDec, storeIfInRange_eq, retire_eq]
  rw [resolve_frame sym s sz]
  rfl

/-- What LDA does, for any sizes. -/
theorem execLda_eq (sym : SymId W) (s : State W) {sz : Sizes} :
    execLda sym s sz = .next { s with
      symtab := (resolve sym s sz).2.symtab
      acc := if inDataRange (resolve sym s sz).1 sz then Memory.read s.dmem (resolve sym s sz).1 else s.acc
      pc := wrap (s.pc.toInt + 1) } := by
  simp only [execLda, loadAccIfInRange_eq, retire_eq]
  rw [resolve_frame sym s sz]
  rfl

/-- What STR does, for any sizes. -/
theorem execStr_eq (sym : SymId W) (s : State W) {sz : Sizes} :
    execStr sym s sz = .next { s with
      symtab := (resolve sym s sz).2.symtab
      dmem := if inDataRange (resolve sym s sz).1 sz then Memory.write s.dmem (resolve sym s sz).1 s.acc else s.dmem
      pc := wrap (s.pc.toInt + 1) } := by
  simp only [execStr, storeIfInRange_eq, retire_eq]
  rw [resolve_frame sym s sz]
  rfl

theorem setResult_acc (r : Int) (s : State W) : (setResult r s).acc = wrap r := rfl
theorem setResult_v (r : Int) (s : State W) : (setResult r s).v = overflows r W.xlen := rfl
theorem setResult_z (r : Int) (s : State W) : (setResult r s).z = decide ((wrap r : Word W) = 0) := rfl

theorem setResult_frame (r : Int) (s : State W) :
    setResult r s = ((s.setV (overflows r W.xlen)).setAcc (wrap r)).setZ (decide ((wrap r : Word W) = 0)) := rfl

theorem overflows_iff_at {r : Int} {n : Nat} : overflows r n = true ↔ r < minInt n ∨ r > maxInt n := by
  simp [overflows]

theorem minInt_eq : minInt 32 = -2147483648 := rfl
theorem maxInt_eq : maxInt 32 = 2147483647 := rfl

theorem overflows_iff {r : Int} : overflows r 32 = true ↔ r < -2147483648 ∨ r > 2147483647 := by
  rw [overflows_iff_at, minInt_eq, maxInt_eq]

/-- What LDI does at the default widths. -/
theorem execLdi_eq (n : Opnd) (s : State) :
    execLdi n s = .next { s with acc := n, pc := wrap (s.pc.toInt + 1) } := by
  rw [execLdi, literal_eq]
  rfl

/-- What a jump does, taken or not, for any widths. -/
theorem jumpIf_eq_at (taken : Bool) (addr : Opnd W) (s : State W) :
    jumpIf taken addr s =
      .next (s.setPc (if taken then target addr else wrap (s.pc.toInt + 1))) := by
  cases taken <;> rfl

theorem jumpIf_eq (taken : Bool) (addr : Opnd) (s : State) :
    jumpIf taken addr s = .next (s.setPc (if taken then addr else wrap (s.pc.toInt + 1))) := by
  rw [jumpIf_eq_at, target_eq]

end Sys2Proof.Machine
end

