-- ==== Sys2Proof/Laws/PerInstr.lean ====
section
/-!
SUPPORT. The statements made per instruction: the encoded word of a well-formed instruction lies in that
instruction's own row of the opcode table (30_encoding.md R61).
-/
namespace Sys2Proof.Laws.EncodesInItsRow

def Statement (i : Instr) : Prop := i.wf = true → inRowOf i (encode i) = true

/-- The row of one opcode, read off the top bits of a word. -/
theorem row_of_mkWord (op : OpCode) (opnd : Opnd) :
    mkWord op opnd &&& mkWord 0xF 0 = mkWord op 0 := by
  apply BitVec.eq_of_toNat_eq
  rw [BitVec.toNat_and, show (mkWord 0xF 0).toNat = (2 ^ 4 - 1) <<< 32 by decide]
  simp only [mkWord, BitVec.toNat_append]
  apply Nat.eq_of_testBit_eq
  intro j
  have h0 : BitVec.toNat (0 : BitVec 32) = 0 := rfl
  rw [h0]
  simp only [Nat.testBit_and, Nat.testBit_or, Nat.testBit_shiftLeft, Nat.testBit_two_pow_sub_one]
  by_cases hj : 32 ≤ j
  · have ho : opnd.toNat.testBit j = false := Nat.testBit_lt_two_pow
      (lt_of_lt_of_le opnd.isLt (Nat.pow_le_pow_right (by decide) hj))
    by_cases h4 : j - 32 < 4
    · simp [hj, ho, h4]
    · have : op.toNat.testBit (j - 32) = false := Nat.testBit_lt_two_pow
        (lt_of_lt_of_le op.isLt (Nat.pow_le_pow_right (by decide) (show 4 ≤ _ by omega)))
      simp [ho, this]
  · simp [hj]

theorem of_opcode {i : Instr} {op : BitVec 4} {opnd : BitVec 32} (hm : rowMask i = mkWord 0xF 0)
    (he : encode i = mkWord op opnd) (hr : mkWord op 0 = rowMatch i) : Statement i := by
  intro _
  rw [inRowOf, hm, he, row_of_mkWord, hr]
  exact beq_self_eq_true _

theorem empty : Statement .empty := of_opcode (op := 0) (opnd := 0) rfl rfl (by decide)
theorem dec (sym : SymId) : Statement (.dec sym) := of_opcode (op := 1) (opnd := sym) rfl rfl rfl
theorem ldi (n : Word) : Statement (.ldi n) := of_opcode (op := 2) (opnd := n) rfl rfl rfl
theorem lda (sym : SymId) : Statement (.lda sym) := of_opcode (op := 3) (opnd := sym) rfl rfl rfl
theorem str (sym : SymId) : Statement (.str sym) := of_opcode (op := 4) (opnd := sym) rfl rfl rfl
theorem xch : Statement .xch := of_opcode (op := 5) (opnd := 0) rfl rfl rfl
theorem add : Statement .add := of_opcode (op := 6) (opnd := 0) rfl rfl rfl
theorem sub : Statement .sub := of_opcode (op := 7) (opnd := 0) rfl rfl rfl
theorem jmp (addr : Word) : Statement (.jmp addr) := of_opcode (op := 8) (opnd := addr) rfl rfl rfl
theorem jzs (addr : Word) : Statement (.jzs addr) := of_opcode (op := 9) (opnd := addr) rfl rfl rfl
theorem jvs (addr : Word) : Statement (.jvs addr) := of_opcode (op := 10) (opnd := addr) rfl rfl rfl
theorem hlt : Statement .hlt := of_opcode (op := 11) (opnd := 0) rfl rfl rfl

theorem reserved (op : BitVec 4) : Statement (.reserved op) := by
  revert op
  unfold Statement
  decide

end Sys2Proof.Laws.EncodesInItsRow
end

