-- ==== Sys2Proof/Laws/Sequencer.lean ====
section
/-!
SUPPORT. What a step can do, said once: the outcomes of the stop tests, of one pass of a RUN and of one step.
-/
namespace Sys2Proof.Machine

variable {W : Widths}

/-- When the three stop tests of a RUN find nothing (43_sequencer.md R101, R104). -/
theorem runStop_eq_none_iff_at {s : State W} {sz : Sizes} :
    runStop s sz = none ↔
      s.halted = false ∧ inFetchRange s.pc sz = true ∧ s.execCount.toNat < sz.runawayCeiling := by
  unfold runStop
  cases s.halted <;> cases inFetchRange s.pc sz <;> simp

theorem runStop_eq_none_iff {s : State W} :
    runStop s = none ↔
      s.halted = false ∧ inFetchRange s.pc = true ∧ s.execCount.toNat < 1000 := runStop_eq_none_iff_at

theorem runStop_eq_runaway_iff_at {s : State W} {sz : Sizes} :
    runStop s sz = some .runaway ↔
      s.halted = false ∧ inFetchRange s.pc sz = true ∧ sz.runawayCeiling ≤ s.execCount.toNat := by
  unfold runStop
  cases s.halted <;> cases inFetchRange s.pc sz <;> simp

theorem runStop_eq_runaway_iff {s : State W} :
    runStop s = some .runaway ↔
      s.halted = false ∧ inFetchRange s.pc = true ∧ 1000 ≤ s.execCount.toNat := runStop_eq_runaway_iff_at

theorem runStop_eq_fetchBound_iff_at {s : State W} {sz : Sizes} :
    runStop s sz = some .fetchBound ↔ s.halted = false ∧ inFetchRange s.pc sz = false := by
  unfold runStop
  cases s.halted <;> cases inFetchRange s.pc sz <;> simp

theorem runStop_eq_fetchBound_iff {s : State W} :
    runStop s = some .fetchBound ↔ s.halted = false ∧ inFetchRange s.pc = false := runStop_eq_fetchBound_iff_at

theorem runStop_eq_halted_iff_at {s : State W} {sz : Sizes} : runStop s sz = some .halted ↔ s.halted = true := by
  unfold runStop
  cases s.halted <;> cases inFetchRange s.pc sz <;> simp

theorem runStop_eq_halted_iff {s : State W} : runStop s = some .halted ↔ s.halted = true := runStop_eq_halted_iff_at

/-- At the default widths and sizes, exec for any is exec. -/
theorem execAt_eq_exec (i : Instr) (s : State) : execAt i s = exec i s := by cases i <;> rfl

/-- The instructions that name no symbol do the same whatever the sizes. -/
theorem execAt_of_no_symbol {i : Instr} (h : symbolOf i = none) (s : State) {sz : Sizes} :
    execAt i s sz = exec i s := by
  cases i <;> first | rfl | cases h

/-- At the default widths and sizes, a cycle is exec of the word decoded at PC. -/
theorem cycle_eq (s : State) : cycle s = exec (decode (fetch s)) s := execAt_eq_exec _ _

/-- What one pass of a RUN's loop can do. -/
theorem runTick_cases (s : State W) {sz : Sizes} :
    (runStop s sz = some .halted ∧ runTick s sz = .next (s.setBusy false)) ∨
    (runStop s sz = some .fetchBound ∧ runTick s sz = .next (s.setBusy false)) ∨
    (runStop s sz = some .runaway ∧
      runTick s sz = .next (((s.setHalted true).setRunaway true).setBusy false)) ∨
    (runStop s sz = none ∧ runTick s sz = countCycle (cycle s sz)) := by
  unfold runTick
  cases h : runStop s sz with
  | none => simp
  | some c => cases c <;> simp

/-- What one step can do: wait, make a pass of a RUN, take a command, or refuse one. -/
theorem stepWith_cases (scope : CeilingScope) (s : State W) {sz : Sizes} :
    (commandTaken s = none ∧ s.busy = false ∧ stepWith scope s sz = .next (s.setHost (hostAfter s))) ∨
    (commandTaken s = none ∧ s.busy = true ∧ stepWith scope s sz = runTick (s.setHost (hostAfter s)) sz) ∨
    (∃ c, commandTaken s = some c ∧ accepts s c = true ∧
      stepWith scope s sz = perform scope c ((s.setHost s.host.tail).setRunaway false) sz) ∨
    (∃ c, commandTaken s = some c ∧ accepts s c = false ∧
      stepWith scope s sz = .refused (.commandNotAccepted c)) := by
  unfold stepWith
  cases h : commandTaken s with
  | none =>
    cases hb : s.busy
    · exact .inl ⟨rfl, rfl, by simp [proceed, hb]⟩
    · exact .inr (.inl ⟨rfl, rfl, by simp [proceed, hb]⟩)
  | some c =>
    have ht : hostAfter s = s.host.tail := by
      unfold commandTaken at h
      unfold hostAfter
      split at h <;> simp_all
    have ha : accepts (s.setHost s.host.tail) c = accepts s c := by cases c <;> rfl
    simp only [ht, issue, ha]
    cases hc : accepts s c
    · exact .inr (.inr (.inr ⟨c, rfl, hc, by simp⟩))
    · exact .inr (.inr (.inl ⟨c, rfl, hc, by simp⟩))

end Sys2Proof.Machine
end

