-- ==== Sys2Proof/Tests/Slice0.lean ====
section
/-!
SUPPORT. The model's own tests: expected results from spec/95_test_vectors.md and the spec's worked examples,
and for every obligation with hypotheses a witness that meets them (witness_<Name>).
-/
namespace Sys2Proof.Tests

open Sys2Proof.Machine Sys2Proof.Claims

/-- Whether an outcome is a next state of which `p` holds. -/
def nextIs {W : Widths} (o : Outcome W) (p : State W → Bool) : Bool :=
  match o with
  | .next t => p t
  | .fault _ | .refused _ => false

/-- One step that runs the instruction word `w` by a STEP. -/
def runs (w : Nat) (s : State) (p : State → Bool) : Bool := nextIs (step (s.withFetchWord 36 w)) p

/-- A state with ACC and DR set, and both flags set before. -/
def withRegs (acc dr : Word) : State := { State.reset with acc := acc, dr := dr, z := true, v := true }

/-- A state at a PC with given flags. -/
def atPc (pc : Target) (z v : Bool) : State := { State.reset with pc := pc, z := z, v := v }

/-- Variable `x` (id 0) allocated at 128 and holding a word. -/
def withX (x : Word) : State := { State.reset with symtab := [0], dmem := [(128, x)] }

/-- A state in the middle of a program: STR of id 7 done, LDA of id 9 and HLT ahead. -/
def sample : State :=
  { State.reset with
    acc := 5, imem := [(0, 0x400000007), (1, 0x300000009), (2, 0xB00000000)], dmem := [(128, 5)], symtab := [7], pc := 1 }

/-- A table of `n` symbols, 0 to n - 1, all else as after reset. -/
def withSymbols (n : Nat) : State := { State.reset with symtab := (List.range n).map (BitVec.ofNat 32) }

/-- A block with one data word and a ceiling of 7 cycles. -/
def small : Sizes := { dmemCap := 1, runawayCeiling := 7 }

/-- A block of 16-bit registers and operands and a 20-bit PC. -/
def narrow : Widths := { xlen := 16, pcW := 20, opndW := 16 }

/-- A narrow block with LDI 0x7FFF in slot 0 and a STEP to take. -/
def narrowSample : State narrow := { State.initial with imem := [(0, 0x27FFF)], host := [.issue .step] }

/-- `sample` with a RUN in progress. -/
def running : State := { sample with busy := true, execCount := 1 }

/-- `sample` with inputs of the host. -/
def sampleWith (inputs : List HostInput) : State := { sample with host := inputs }

/-- A load in progress with a command at hand. -/
def loadingWith (c : Command) : State := { State.reset with loading := true, host := [.issue c] }

/-! ## WellFormed: the check refuses the ill-formed -/

theorem test_wf_refuses_opcodes_of_instructions :
    (Instr.reserved 0x3 : Instr).wf = false ∧ (Instr.reserved 0xB : Instr).wf = false ∧ (Instr.reserved 0x0 : Instr).wf = false := by
  decide

theorem test_wf_accepts_reserved_opcodes :
    (Instr.reserved 0xC : Instr).wf = true ∧ (Instr.reserved 0xF : Instr).wf = true ∧ (Instr.ldi 0xFFFFFFFF : Instr).wf = true := by
  decide

/-! ## Decoding: words written out from the patterns of 30_encoding.md R61 -/

theorem test_decode_data_transfer :
    decode (0b000100000000000000000000000000000011 : IWord) = .dec 3 ∧
    decode (0b001011111111111111111111111111111111 : IWord) = .ldi (-1) ∧
    decode (0b001000000000000000000000000000000101 : IWord) = .ldi 5 ∧
    decode (0b001110000000000000000000000000000001 : IWord) = .lda 0x80000001 ∧
    decode (0b010000000000000000000000000000000001 : IWord) = .str 1 ∧
    decode (0b010100000000000000000000000000000000 : IWord) = .xch := by decide

theorem test_decode_arithmetic :
    decode (0b011000000000000000000000000000000101 : IWord) = .add ∧
    decode (0b011100000000000000000000000000000000 : IWord) = .sub := by decide

theorem test_decode_control :
    decode (0b100000000000000000000000000000000100 : IWord) = .jmp 4 ∧
    decode (0b100011111111111111111111111111111111 : IWord) = .jmp (-1) ∧
    decode (0b100100000000000000000000000000001001 : IWord) = .jzs 9 ∧
    decode (0b101000000000000000000000000000000111 : IWord) = .jvs 7 ∧
    decode (0b101100000000000000000000000000000000 : IWord) = .hlt := by decide

theorem test_decode_empty_and_reserved :
    decode (0b000011111111111111111111111111111111 : IWord) = .empty ∧
    decode (0b110000000000000000000000000000000000 : IWord) = .reserved 0xC ∧
    decode (0b110100010010001101000101011001111000 : IWord) = .reserved 0xD ∧
    decode (0b111111111111111111111111111111111111 : IWord) = .reserved 0xF := by decide

theorem test_encode_ignores_operand_of_format_n :
    encode (decode (0x6ABCDEF01 : IWord)) = 0x600000000 ∧ encode (.jzs (-2) : Instr) = 0x9FFFFFFFE := by decide

theorem test_table_word_of_more_bits_is_none :
    decodeTableWord 40 0x1000000000 = none ∧ decodeTableWord 40 0xB00000000 = some .hlt := by decide

/-! ## Data transfer (95_test_vectors.md 2.2) -/

theorem test_ldi_zero_keeps_z :
    runs 0x200000000 { withRegs 3 9 with z := false } (fun t => t.acc == 0 && !t.z && t.dr == 9 && t.pc == 1) = true := by
  decide

theorem test_ldi_int32_min : runs 0x280000000 (withRegs 3 9) (fun t => t.acc == 0x80000000 && t.z && t.v) = true := by
  decide

theorem test_str_allocates_at_128 :
    runs 0x400000000 (withRegs 0x2A 9) (fun t => t.dmem == [(128, 0x2A)] && t.symtab == [0] && t.acc == 0x2A) = true := by
  decide

theorem test_str_of_zero_keeps_canonical_form :
    runs 0x400000000 (withX 9) (fun t => t.dmem == [] && memRead 128 t == 0) = true := by decide

theorem test_lda_of_a_new_variable_loads_zero :
    runs 0x300000001 { withX 9 with acc := 4 } (fun t => t.acc == 0 && t.symtab == [0, 1] && t.dmem == [(128, 9)] && !t.z) = true := by
  decide

theorem test_lda_of_a_known_variable :
    runs 0x300000000 (withX 0xFFFFFFFF) (fun t => t.acc == 0xFFFFFFFF && t.symtab == [0] && t.pc == 1) = true := by
  decide

theorem test_dec_clears :
    runs 0x100000000 { withX 9 with acc := 4 } (fun t => memRead 128 t == 0 && t.acc == 4 && t.symtab == [0]) = true := by
  decide

theorem test_dec_declares : runs 0x100000000 State.reset (fun t => t.symtab == [0] && memRead 128 t == 0) = true := by
  decide

theorem test_xch : runs 0x500000000 (withRegs 1 2) (fun t => t.acc == 2 && t.dr == 1 && t.z && t.v && t.pc == 1) = true := by
  decide

theorem test_resolve_in_first_use_order :
    (resolveAll [5, 2, 5, 9] State.reset).1 = [128, 129, 128, 130] ∧
    (resolveAll [5, 2, 5, 9] State.reset).2.symtab = [5, 2, 9] := by decide

/-! ## Arithmetic (95_test_vectors.md 2.3) -/

theorem test_add_overflows_both_ways :
    runs 0x600000000 (withRegs 0x7FFFFFFF 1) (fun t => t.acc == 0x80000000 && !t.z && t.v && t.dr == 1) = true ∧
    runs 0x600000000 (withRegs 0x80000000 0x80000000) (fun t => t.acc == 0 && t.z && t.v) = true ∧
    runs 0x600000000 (withRegs 0x80000000 0xFFFFFFFF) (fun t => t.acc == 0x7FFFFFFF && !t.z && t.v) = true := by
  decide

theorem test_add_overwrites_flags :
    runs 0x600000000 (withRegs 2 3) (fun t => t.acc == 5 && !t.z && !t.v && t.pc == 1) = true ∧
    runs 0x600000000 (withRegs 0xFFFFFFFF 1) (fun t => t.acc == 0 && t.z && !t.v) = true := by decide

theorem test_sub_overflows :
    runs 0x700000000 (withRegs 0 0x80000000) (fun t => t.acc == 0x80000000 && !t.z && t.v) = true ∧
    runs 0x700000000 (withRegs 0x80000000 0x7FFFFFFF) (fun t => t.acc == 1 && !t.z && t.v) = true ∧
    runs 0x700000000 (withRegs 0x7FFFFFFF 0xFFFFFFFF) (fun t => t.acc == 0x80000000 && !t.z && t.v) = true := by
  decide

theorem test_sub_is_acc_minus_dr :
    runs 0x700000000 (withRegs 1 3) (fun t => t.acc == 0xFFFFFFFE && !t.z && !t.v && t.dr == 3) = true ∧
    runs 0x700000000 (withRegs 0xFFFFFFFF 0x7FFFFFFF) (fun t => t.acc == 0x80000000 && !t.v) = true ∧
    runs 0x700000000 (withRegs 5 5) (fun t => t.acc == 0 && t.z && !t.v) = true := by decide

/-! ## Control transfer and halt (95_test_vectors.md 2.4) -/

theorem test_jmp :
    runs 0x800000000 (atPc 3 true true) (fun t => t.pc == 0 && !t.halted) = true ∧
    runs 0x8FFFFFFFF (atPc 3 false false) (fun t => t.pc == 0xFFFFFFFF && !t.halted) = true := by decide

theorem test_jzs_taken : runs 0x900000009 (atPc 7 true false) (fun t => t.pc == 9 && t.z && !t.v) = true := by
  decide

theorem test_jzs_reads_z_only : runs 0x900000002 (atPc 7 false true) (fun t => t.pc == 8 && !t.z && t.v) = true := by
  decide

theorem test_jvs_taken : runs 0xA00000007 (atPc 4 false true) (fun t => t.pc == 7 && t.v && !t.z) = true := by
  decide

theorem test_jvs_reads_v_only : runs 0xA00000000 (atPc 4 true false) (fun t => t.pc == 5) = true := by
  decide

theorem test_hlt_keeps_pc : runs 0xB00000000 (atPc 6 true true) (fun t => t.pc == 6 && t.halted && t.z && t.v) = true := by
  decide

theorem test_empty_slot : runs 0x000000000 (atPc 1 true true) (fun t => t == { atPc 1 true true with pc := 2 }) = true := by
  decide

theorem test_reserved :
    runs 0xD12345678 (atPc 1 true true)
      (fun t => t == { atPc 1 true true with pc := 2, imem := [(1, 0xD12345678)] }) = true := by decide

/-! ## Sequencer (95_test_vectors.md 2.5) -/

theorem test_step_when_halted :
    nextIs (step { atPc 6 true true with halted := true, host := [.issue .step] })
      (fun t => t == { atPc 6 true true with halted := true }) = true := by decide

theorem test_step_outside_the_fetch_range :
    nextIs (step { atPc 128 true true with host := [.issue .step] }) (fun t => t == atPc 129 true true) = true := by
  decide

theorem test_step_does_not_count :
    runs 0x500000000 { State.reset with execCount := 500 } (fun t => t.execCount == 500) = true := by decide

theorem test_run_when_halted :
    nextIs (runToHalt .session { State.reset with halted := true, execCount := 1000 })
      (fun t => t == { State.reset with halted := true, execCount := 1000 }) = true := by decide

theorem test_run_at_negative_pc :
    nextIs (runToHalt .session (atPc (-5) false false)) (fun t => t == atPc (-5) false false) = true := by decide

theorem test_run_at_the_ceiling :
    nextIs (runToHalt .session { State.reset with execCount := 1000 })
      (fun t => t == { State.reset with execCount := 1000, halted := true, runaway := true }) = true := by decide

theorem test_run_fetch_bound_before_ceiling :
    nextIs (runToHalt .session { atPc 200 false false with execCount := 1000 })
      (fun t => t == { atPc 200 false false with execCount := 1000 }) = true := by decide

theorem test_run_hlt_as_the_last_cycle :
    nextIs (runToHalt .session { State.reset with execCount := 999, imem := [(0, 0xB00000000)] })
      (fun t => t.halted && t.execCount == 1000 && !t.runaway && t.pc == 0) = true := by decide

theorem test_run_command_scope_clears_the_count :
    nextIs (runToHalt .runCommand { State.reset with execCount := 1000, imem := [(0, 0xB00000000)] })
      (fun t => t.halted && t.execCount == 1 && !t.runaway) = true := by decide

theorem test_sizes_reach_the_ranges :
    small.dmemTop = 128 ∧ nextIs (execAt (.str 9) sample small) (fun t => t.symtab == [7, 9] && t.dmem == [(128, 5)]) = true ∧
    nextIs (execAt (.str 7) { sample with acc := 6 } small) (fun t => t.dmem == [(128, 6)]) = true ∧
    nextIs (runToHalt .session { State.reset with execCount := 7 } small) (fun t => t.halted && t.runaway) = true ∧
    inFetchRange (4 : Target) { imemCap := 4 } = false := by decide

/-- A block whose instruction addresses begin at 4 (R7: the data addresses move with them). -/
theorem test_imem_base_moves_the_ranges :
    (let sz : Sizes := { imemBase := 4 }
     sz.dmemBase = 132 ∧ inFetchRange (3 : Target) sz = false ∧ inFetchRange (4 : Target) sz = true ∧ inFetchRange (131 : Target) sz = true ∧
     inFetchRange (132 : Target) sz = false ∧ (resolve 7 State.reset sz).1 = 132) := by decide

/-- Words of 20 bits, overflow beyond 16 bits, and a target that keeps its sign in a wider PC. -/
theorem test_other_widths :
    decode (0x27FFF : IWord narrow) = .ldi 0x7FFF ∧
    nextIs (execAt .add { narrowSample with acc := 0x7FFF, dr := 1 }) (fun t => t.acc == 0x8000 && t.v && !t.z) = true ∧
    nextIs (execAt (.jmp 0xFFFF) narrowSample) (fun t => t.pc == 0xFFFFF) = true ∧
    nextIs (stepWith .session narrowSample) (fun t => t.acc == 0x7FFF && t.pc == 1) = true ∧
    (parseOperand (some ['3', '2', '7', '6', '8']) : Option (Opnd narrow)) = none := by decide

/-! ## Loading (95_test_vectors.md 2.6) -/

theorem test_load_skips_unknown_opcode :
    loadCommands (fun _ => (0 : SymId)) [['L', 'D', 'I', ' ', '7'], ['F', 'O', 'O'], ['H', 'L', 'T']] =
      [.loadBegin, .imemWrite 0 0x200000007, .imemWrite 2 0xB00000000, .loadEnd .ok] := by decide

theorem test_load_stops_at_parse_error :
    loadCommands (fun _ => (0 : SymId)) [['L', 'D', 'I', ' ', '1'], ['J', 'M', 'P', ' ', 'x'], ['H', 'L', 'T']] =
      [.loadBegin, .imemWrite 0 0x200000001, .loadEnd .parseError] := by decide

theorem test_literal_range :
    (parseOperand (some ['2', '1', '4', '7', '4', '8', '3', '6', '4', '8']) : Option Opnd) = none ∧
    (parseOperand (some ['-', '2', '1', '4', '7', '4', '8', '3', '6', '4', '8']) : Option Opnd) = some 0x80000000 ∧
    (parseOperand (some ['+', '0', '0', '5']) : Option Opnd) = some 5 ∧ (parseOperand (some ['-']) : Option Opnd) = none := by decide

theorem test_lines :
    assembleLine (fun _ => (0 : SymId)) ['a', 'd', 'd'] = .skipped ∧ assembleLine (fun _ => (0 : SymId)) [] = .skipped ∧
    assembleLine (fun _ => (0 : SymId)) ['X', 'C', 'H', ' ', '5', ' ', '6'] = .instruction .xch ∧
    assembleLine (fun _ => (0 : SymId)) ['L', 'D', 'I'] = .parseError ∧
    assembleLine (W := Config.widths) (fun t => BitVec.ofNat 32 t.length) [' ', 'S', 'T', 'R', '\t', 'a', 'b'] = .instruction (.str 2) := by
  decide

theorem test_rendering :
    render (fun _ => ['x']) (.ldi 0x80000000 : Instr) =
      some ['L', 'D', 'I', ' ', '-', '2', '1', '4', '7', '4', '8', '3', '6', '4', '8'] ∧
    render (fun _ => ['x']) (.str 0 : Instr) = some ['S', 'T', 'R', ' ', 'x'] := by decide

theorem test_condition_codes :
    [Condition.unknownOpcode, .parseError, .emptySlot, .reservedOpcode, .fetchOutOfRange, .outOfRangeAddress,
      .overflow, .runawayProgram].map Condition.code = [1, 2, 3, 4, 5, 6, 7, 8] := by decide

theorem test_ports :
    statusView { State.reset with z := true, halted := true } = 5 ∧ symCount (withX 1) = 1 ∧
    diag 128 (withX 9) = some (.data 9 (some 0)) ∧ diag 255 (withX 9) = some (.data 0 none) ∧
    diag 127 (withX 9) = some (.slot 0) := by decide

/-- The 129th symbol resolves right above DMEM_TOP. -/
theorem test_resolve_at_a_full_table : (resolve 128 (withSymbols 128)).1 = 256 := by
  rw [resolve_of_not_mem]
  · simp [withSymbols]
  · simp only [withSymbols, List.mem_map, List.mem_range, not_exists, not_and]
    intro a ha h
    have := congrArg BitVec.toNat h
    rw [BitVec.toNat_ofNat, Nat.mod_eq_of_lt (by omega)] at this
    exact absurd this (by show a ≠ 128; omega)

/-! ## Witnesses: every obligation's hypotheses are met, clause by clause -/

/-- `sample` meets the invariant for any sizes with the default IMEM_CAP and a ceiling its count has not passed. -/
theorem sample_inv (dmemCap runawayCeiling : Nat) :
    BlockInv sample { dmemCap := dmemCap, runawayCeiling := runawayCeiling } where
  imemWf := by decide
  imemSlots := show ∀ p ∈ sample.imem, 0 ≤ p.1 ∧ p.1 < 128 by decide
  dmemWf := by decide
  dmemAllocated := show ∀ p ∈ sample.dmem, 128 ≤ p.1 ∧ p.1 < 129 by decide
  symtabNodup := by decide
  symtabNamed := by
    intro sym h
    obtain rfl : sym = 7 := by simpa [sample, State.reset] using h
    exact ⟨0, inInstrRange_iff_at.2 (show (0 : Int) ≤ 0 ∧ (0 : Int) < 128 by decide), by decide⟩
  countBounded := Nat.zero_le _
  notBusyLoading := by decide
  loadingFresh h := absurd h (by decide)
  runawayHalted := by decide

theorem witness_invariant : BlockInv sample := sample_inv 128 1000

theorem witness_DecoderFollowsItsCaseTable : 12 ≤ (0xC : BitVec 4).toNat ∧ 12 ≤ (0xF : BitVec 4).toNat := by decide

theorem witness_DecodeUndoesEncode :
    (Instr.reserved 0xC : Instr).wf = true ∧ (Instr.str 0xFFFFFFFF : Instr).wf = true ∧
    (Instr.hlt : Instr narrow).wf = true := by decide

theorem witness_EveryWordSelectsExactlyOneRow :
    inRowOf (.reserved 0xE : Instr) 0xF00000000 = true ∧ inRowOf (.jvs 3 : Instr) 0xAFFFFFFFF = true ∧ inRowOf (.empty : Instr) 1 = true := by
  decide

theorem witness_AddOverflowShowsInSignBits :
    nextIs (exec .add (withRegs 0x7FFFFFFE 1)) (fun t => !t.v) = true ∧
    (0x7FFFFFFF : Word).toInt + (1 : Word).toInt > 2147483647 ∧
    (0x80000000 : Word).toInt + (0xFFFFFFFF : Word).toInt < -2147483648 := by decide

theorem witness_SubOverflowShowsInSignBits :
    nextIs (exec .sub (withRegs 0xFFFFFFFF 0x7FFFFFFF)) (fun t => !t.v) = true ∧
    nextIs (exec .sub (withRegs 5 5)) (fun t => t.z) = true := by decide

theorem witness_EmptyAndReservedOnlyAdvancePc : 12 ≤ (0xC : BitVec 4).toNat := by decide

theorem witness_ResolveFindsOrAllocates :
    (sample.symtab[0]? = some 7 ∧ ∀ j < 0, sample.symtab[j]? ≠ some 7) ∧ (9 : SymId) ∉ sample.symtab := by decide

theorem witness_ResolveIsIdempotentAndInFirstUseOrder :
    [(5 : SymId), 2, 9].Nodup ∧ State.reset.symtab = [] := by decide

theorem witness_DecClearsItsVariable : Memory.wf sample.dmem := by decide

theorem witness_StrStoresAcc : Memory.wf sample.dmem := by decide

theorem witness_FirstUseByLdaLoadsZero :
    BlockInv sample ∧ (9 : SymId) ∉ sample.symtab ∧ sample.symtab.length < 128 :=
  ⟨witness_invariant, by decide, by decide⟩

theorem witness_StoreThenLoadReturnsValue :
    Memory.wf sample.dmem ∧ (resolve 7 sample).1 ≤ 255 ∧ (resolve 9 sample).1 ≤ 255 := by decide

theorem witness_StoreLeavesOtherVariablesAlone :
    BlockInv sample ∧ sample.symtab.length + 2 ≤ 128 ∧ (9 : SymId) ≠ 11 :=
  ⟨witness_invariant, by decide, by decide⟩

/-- A store in range, and one whose symbol resolves right above DMEM_TOP. -/
theorem witness_EveryInstructionWritesOnlyItsOwnState :
    Memory.wf sample.dmem ∧ (resolve 7 sample).1 = 128 ∧ 129 ≠ (resolve 7 sample).1 ∧
    255 < (resolve 128 (withSymbols 128)).1 :=
  ⟨by decide, by decide, by decide, by rw [test_resolve_at_a_full_table]; decide⟩

theorem witness_RegistersAreReadOnlyWhereListed :
    (Instr.hlt : Instr) ∉ [Instr.xch, .add, .sub] ∧ ¬ ∃ a, (Instr.hlt : Instr) = .jzs a := by simp

theorem witness_ImemChangesOnlyThroughTheLoadPort :
    ∃ t, stepWith .session (loadingWith (.imemWrite 127 0xB00000000)) = .next t ∧ t.imem = [(127, 0xB00000000)] :=
  ⟨_, rfl, by decide⟩

theorem witness_SymtabOnlyGrows :
    ∃ t, stepWith .session running = .next t ∧ t.symtab = [7, 9] := ⟨_, rfl, by decide⟩

theorem witness_FetchSeesSlotOrEmptyWord :
    (atPc 0 true true).pc.toInt = (0 : Nat) ∧ (atPc 127 true true).pc.toInt = (127 : Nat) ∧
    ¬ InSlots (atPc 128 true true).pc ∧ ¬ InSlots (atPc (-1) true true).pc ∧
    (State.host { atPc 128 true true with busy := true } = []) := by
  unfold InSlots; decide

theorem witness_StepRunsTheDecodedInstruction :
    (commandTaken (sampleWith [.issue .step]) = some .step ∧ sample.busy = false ∧ sample.loading = false ∧
      sample.halted = false) ∧
    (running.host = [] ∧ running.busy = true ∧ running.halted = false ∧ InSlots running.pc ∧
      running.execCount.toNat < 1000) := by
  unfold InSlots; decide

theorem witness_WithFetchWordRunsThatWordNext :
    Memory.wf sample.imem ∧ 0xFFFFFFFFF % 2 ^ 36 < 2 ^ 36 ∧ InSlots sample.pc := by unfold InSlots; decide

theorem witness_StepCommandIsOneCycleOrNothing :
    commandTaken (sampleWith [.issue .step]) = some .step ∧ sample.busy = false ∧ sample.loading = false ∧
    sample.halted = false ∧ (State.halted { sample with halted := true } = true) ∧
    ¬ InSlots (atPc 128 false false).pc ∧ (atPc 128 false false).halted = false := by
  unfold InSlots; decide

theorem witness_RunFollowsItsLoop :
    (commandTaken (sampleWith [.issue .run]) = some .run ∧ sample.busy = false ∧ sample.loading = false) ∧
    running.host = [] ∧ running.busy = true ∧ running.halted = false ∧ InSlots running.pc ∧
    running.execCount.toNat < 1000 ∧ 1000 ≤ (1000 : BitVec 32).toNat ∧ ¬ InSlots 128 := by
  unfold InSlots; decide

theorem witness_ExecCountGrowsOnlyByRunCycles :
    ∃ t, stepWith .session running = .next t ∧ running.busy = true ∧ commandTaken running = none ∧
      runStop running = none ∧ running.execCount.toNat < t.execCount.toNat :=
  ⟨_, rfl, by decide, by decide, by decide, by decide⟩

theorem witness_RunStopsAreTestedInOrder :
    (InSlots 0 ∧ InSlots 127 ∧ ¬ InSlots 128 ∧ ¬ InSlots (-1)) ∧ 1000 ≤ (1000 : BitVec 32).toNat ∧
    (999 : BitVec 32).toNat < 1000 ∧ decode (fetch { sample with pc := 2 }) = .hlt := by
  unfold InSlots; decide

theorem witness_HaltStateMachineTransitions :
    (∃ t, stepWith .session { running with pc := 2 } = .next t ∧ t.halted = true) ∧
    (∃ t, stepWith .session { running with execCount := 1000 } = .next t ∧ t.halted = true) ∧
    (∃ t, stepWith .session { sample with halted := true, host := [.issue .reset] } = .next t ∧ t.halted = false) ∧
    (∃ t, stepWith .session { sample with halted := true, host := [.issue .loadBegin] } = .next t ∧ t.halted = false) ∧
    (∃ t, stepWith .session { sample with halted := true, host := [.issue .step] } = .next t ∧ t.halted = true) :=
  ⟨⟨_, rfl, by decide⟩, ⟨_, rfl, by decide⟩, ⟨_, rfl, by decide⟩, ⟨_, rfl, by decide⟩, ⟨_, rfl, by decide⟩⟩

theorem witness_RunawayRisesExactlyAtForceHalt :
    ∃ t, stepWith .session { running with execCount := 1000 } = .next t ∧ running.runaway = false ∧
      t.runaway = true := ⟨_, rfl, by decide, by decide⟩

theorem witness_RunEndsInOneOfThreeStates :
    running.busy = true ∧ running.host = [] ∧ running.runaway = false := by decide

theorem witness_StepsOfARunAreOneTransaction :
    commandTaken (sampleWith [.issue .run]) = some .run ∧ (sampleWith [.issue .run]).host.tail = [] ∧
    (sampleWith [.issue .run]).busy = false ∧ (sampleWith [.issue .run]).loading = false := by decide

/-- JMP 1 in slot 1, in a RUN; the count at the boundary 1000 is met as well. -/
theorem witness_JumpToItselfForceHaltsAtTheCeiling :
    decode (fetch { running with imem := [(1, 0x800000001)] }) = .jmp running.pc ∧ running.busy = true ∧
    running.host = [] ∧ running.halted = false ∧ InSlots running.pc ∧ running.execCount.toNat ≤ 1000 ∧
    (1000 : BitVec 32).toNat ≤ 1000 := by
  unfold InSlots; decide

theorem witness_RunCycleEqualsStepCycle :
    sample.halted = false ∧ InSlots sample.pc ∧ sample.execCount.toNat < 1000 := by unfold InSlots; decide

/-- Every command taken where it is accepted, and each of two where it is not. -/
theorem witness_CommandsAreAcceptedOrRefused :
    (∀ c ∈ [(Command.loadBegin : Command), .step, .run, .reset],
      commandTaken (sampleWith [.issue c]) = some c ∧ accepts (sampleWith [.issue c]) c = true) ∧
    (∀ c ∈ [(Command.imemWrite 127 0 : Command), .loadEnd .ok],
      commandTaken (loadingWith c) = some c ∧ accepts (loadingWith c) c = true ∧
      accepts (sampleWith [.issue c]) c = false) ∧
    accepts running .step = false := by decide

theorem witness_NoStepFaults : commandTaken running = none ∧ commandTaken State.reset = none := by decide

theorem witness_ResetSetsEveryPieceOfState :
    commandTaken (State.mk 1 2 true true 3 true [] [] [] 4 true false false [.issue .reset] : State) = some .reset := by
  decide

theorem witness_LoadBeginMakesAFreshMachine :
    commandTaken (sampleWith [.issue .loadBegin]) = some .loadBegin ∧ sample.busy = false ∧
    sample.loading = false := by decide

theorem witness_LoadPortWritesSlots :
    (∀ a ∈ [(-1 : Int), 0, 127, 128],
      commandTaken (loadingWith (.imemWrite a 0xB00000000)) = some (.imemWrite a 0xB00000000)) ∧
    commandTaken (loadingWith (.loadEnd .parseError)) = some (.loadEnd .parseError) ∧
    (loadingWith (.loadEnd .ok)).busy = false ∧ (loadingWith (.loadEnd .ok)).loading = true ∧
    Memory.wf (loadingWith (.loadEnd .ok)).imem := by decide

theorem witness_NoCommandWaitsOrGoesOn :
    (State.reset.host = [] ∧ State.reset.busy = false) ∧ (sampleWith [.quiet]).host = .quiet :: [] ∧
    (sampleWith [.await .step]).host = .await .step :: [] ∧ sample.busy = false ∧ running.busy = true := by decide

theorem witness_EveryStepKeepsTheInvariant :
    BlockInv sample ∧ (∃ t, stepWith .load sample = .next t) ∧ ∃ t, step sample = .next t :=
  ⟨witness_invariant, ⟨_, rfl⟩, ⟨_, rfl⟩⟩

theorem witness_EveryStepKeepsTheInvariant_at_other_sizes :
    BlockInv sample small ∧ ∃ t, stepWith .session { sample with busy := true } small = .next t ∧ t.symtab = [7, 9] :=
  ⟨sample_inv 1 7, _, rfl, by decide⟩

theorem witness_EveryStepKeepsTheInvariant_at_other_widths :
    BlockInv (State.initial : State narrow) ∧ ∃ t, stepWith .session (State.initial : State narrow) = .next t :=
  ⟨⟨Memory.wf_nil, by simp, Memory.wf_nil, by simp, by simp, by simp, Nat.zero_le _, by simp, by simp, by simp⟩, _, rfl⟩

/-- The default sizes, where IMEM_CAP = DMEM_CAP, and a block with one data word. -/
theorem witness_SymbolsAlwaysResolveInRange :
    BlockInv sample ∧ symbolOf (decode (fetch sample)) = some 9 ∧ Config.sizes.imemCap ≤ Config.sizes.dmemCap ∧
    BlockInv sample small ∧ symbolOf (decode (fetch sample small)) = some 9 :=
  ⟨witness_invariant, by decide, by decide, sample_inv 1 7, by decide⟩

/-- The first address above DMEM_TOP, in a small block and at the default sizes. -/
theorem witness_OutOfRangeAccessDoesNothing :
    (resolve 9 sample small).1 = small.dmemTop + 1 ∧
    (resolve 128 (withSymbols 128)).1 = Config.sizes.dmemTop + 1 := ⟨by decide, test_resolve_at_a_full_table⟩

/-- Both premises on widths at their boundary (OPND_W = PC_W), and at other widths. -/
theorem witness_ParametersHaveTheirDefaultsAndRanges :
    0 < small.dmemCap ∧ 0 < Config.sizes.dmemCap ∧ Config.widths.wf ∧ Config.widths.opndW = Config.widths.pcW ∧
    narrow.wf ∧ narrow.opndW < narrow.pcW := by decide

theorem witness_SymbolIdsAreOnlyNames : Function.Injective (fun sym : SymId => sym + 1) :=
  fun _ _ h => by simpa using h

theorem witness_PortsShowTheState :
    (withSymbols 128).symtab.length ≤ 128 ∧ (withSymbols 0).symtab.length ≤ 128 ∧ 0 < 128 ∧ 127 < 128 := by
  simp [withSymbols]

theorem witness_ConditionsExcludeEachOther :
    meetsInCycle State.reset .emptySlot = true ∧ meetsInCycle (atPc (-1) false false) .fetchOutOfRange = true ∧
    stopsRun (atPc 128 false false) .fetchOutOfRange = true ∧
    stopsRun { State.reset with execCount := 1000 } .runawayProgram = true := by decide

theorem witness_RenderingRoundTrips :
    render (fun _ => ['x']) (.str 0 : Instr) = some ['S', 'T', 'R', ' ', 'x'] ∧
    symbolOf (.str 0 : Instr) = some 0 ∧ (∀ c ∈ ['x'], isSeparator c = false) :=
  ⟨by decide, by decide, by simp [show isSeparator 'x' = false by decide]⟩

theorem witness_IntegerOperandsHaveTheStatedForm :
    [(4 : Fin 10), 2] ≠ [] ∧ parseInt ['-', '4', '2'] ≠ none := by decide

theorem witness_LinesAreReadByTheirFirstTwoTokens :
    tokens [' ', '\t'] = [] ∧ tokens ['F', 'O', 'O'] = [['F', 'O', 'O']] ∧
    (∀ n ∈ opNames, n.text ≠ ['F', 'O', 'O']) ∧
    tokens ['X', 'C', 'H', ' ', '5', ' ', '6'] = OpName.xch.text :: ['5'] :: [['6']] ∧
    tokens ['H', 'L', 'T'] = [OpName.hlt.text] := by decide

theorem witness_LoadingAProgramFillsItsSlots :
    ∃ s : State, s.busy = false ∧ s.loading = false ∧
      s.host = (loadCommands (fun _ => (0 : SymId)) [['L', 'D', 'I', ' ', '7'], ['H', 'L', 'T']]).map .issue :=
  ⟨sampleWith _, rfl, rfl, rfl⟩

theorem witness_DistinctLabelsGetDistinctIds :
    ['x'] ∈ labelsOf [['S', 'T', 'R', ' ', 'y'], ['L', 'D', 'A', ' ', 'x']] ∧
    (idByFirstAppearance [['S', 'T', 'R', ' ', 'y'], ['L', 'D', 'A', ' ', 'x']] ['x'] : SymId) = 1 := by decide

end Sys2Proof.Tests
end

