-- ==== Sys2Proof/Proofs/Parameters.lean ====
section
/-!
SUPPORT. The ranges and the width-dependent instructions of a block of any widths and sizes (00_scope.md R6 to R10),
and the proof of the statement about the parameters.
-/
namespace Sys2Proof.Machine

variable {W : Widths}

/-! The address ranges (R7, R10). -/

theorem inInstrRange_natCast_iff {a : Nat} {sz : Sizes} :
    inInstrRange a sz = true ↔ sz.imemBase ≤ a ∧ a < sz.imemBase + sz.imemCap := by
  rw [inInstrRange_iff_at]
  omega

/-- DMEM_TOP is the last data address only where there is one: with DMEM_CAP 0 and DMEM_BASE 0 the subtraction
stops at 0. -/
theorem inDataRange_iff_of_dmemCap_pos {a : Nat} {sz : Sizes} (h : 0 < sz.dmemCap) :
    inDataRange a sz = true ↔
      sz.imemBase + sz.imemCap ≤ a ∧ a < sz.imemBase + sz.imemCap + sz.dmemCap := by
  rw [inDataRange_iff_at, Sizes.dmemTop, Sizes.dmemBase]
  omega

theorem inFetchRange_iff_at {p : Target W} {sz : Sizes} :
    inFetchRange p sz = true ↔ sz.imemBase ≤ p.toInt ∧ p.toInt < sz.imemBase + sz.imemCap :=
  inInstrRange_iff_at

/-! The full next states of ADD, SUB, LDI and JMP at any widths and sizes (R79, R86, R87, R89). -/

theorem execAt_add_eq (s : State W) (sz : Sizes) :
    execAt .add s sz = .next ((setResult (exactSum s) s).setPc (s.pc + 1)) := by
  rw [← wrap_succ s.pc]
  rfl

theorem execAt_sub_eq (s : State W) (sz : Sizes) :
    execAt .sub s sz = .next ((setResult (exactDiff s) s).setPc (s.pc + 1)) := by
  rw [← wrap_succ s.pc]
  rfl

theorem execAt_ldi_eq (n : Opnd W) (s : State W) (sz : Sizes) :
    execAt (.ldi n) s sz = .next { s with acc := literal n, pc := s.pc + 1 } := by
  rw [← wrap_succ s.pc]
  rfl

theorem execAt_jmp_eq (addr : Opnd W) (s : State W) (sz : Sizes) :
    execAt (.jmp addr) s sz = .next { s with pc := target addr } := rfl

end Sys2Proof.Machine

namespace Sys2Proof.Claims

open Sys2Proof.Machine

/-- Settles O60: the defaults are computed from the definitions; each range, and each instruction whose effect
depends on a width, is one of the laws for any widths and sizes. -/
theorem parametersHaveTheirDefaultsAndRanges : Obligations.ParametersHaveTheirDefaultsAndRanges := by
  refine ⟨by decide, fun W sz => ⟨rfl, rfl, rfl, fun _ => inInstrRange_natCast_iff,
    fun hcap _ => inDataRange_iff_of_dmemCap_pos hcap, fun _ => inFetchRange_iff_at,
    fun s => ⟨⟨_, execAt_add_eq s sz, ?add⟩, ⟨_, execAt_sub_eq s sz, ?sub⟩, fun x => ⟨?ldi, ?jmp⟩⟩⟩⟩
  case add => exact overflows_iff_at
  case sub => exact overflows_iff_at
  case ldi =>
    intro hw
    exact ⟨_, execAt_ldi_eq x s sz, literal_toInt hw x, rfl⟩
  case jmp =>
    intro hw
    exact ⟨_, execAt_jmp_eq x s sz, target_toInt hw x, rfl⟩

end Sys2Proof.Claims
end

