-- ==== Sys2Proof/Proofs/NextState.lean ====
section
/-!
SUPPORT. The next state of every instruction as a function of the state, for any widths and sizes: each instruction
completes (execAt_eq_next), so what it writes and what it leaves alone is said of this function, once.
-/
namespace Sys2Proof.Machine

variable {W : Widths}

/-! Resolve as a function of SYMTAB (20_memory.md R44): the address it gives and the table it leaves. -/

/-- SYMTAB after Resolve: with the symbol at its end where it was not there. -/
def allocate (sym : SymId W) (tab : List (SymId W)) : List (SymId W) := if sym ∈ tab then tab else tab ++ [sym]

/-- The data address Resolve gives: `List.idxOf` of a symbol not in the table is the table's length. -/
def addressOf (sym : SymId W) (tab : List (SymId W)) (sz : Sizes := Config.sizes) : Nat :=
  sz.dmemBase + tab.idxOf sym

theorem allocate_of_mem {sym : SymId W} {tab : List (SymId W)} (h : sym ∈ tab) : allocate sym tab = tab := if_pos h

theorem allocate_of_not_mem {sym : SymId W} {tab : List (SymId W)} (h : sym ∉ tab) :
    allocate sym tab = tab ++ [sym] := if_neg h

theorem resolve_eq (sym : SymId W) (s : State W) (sz : Sizes) :
    resolve sym s sz = (addressOf sym s.symtab sz, s.setSymtab (allocate sym s.symtab)) := by
  have hidx := List.idxOf_eq_getD_idxOf? sym s.symtab
  cases h : s.symtab.idxOf? sym with
  | some i =>
    obtain ⟨hi, he, -⟩ := List.idxOf?_eq_some_iff.1 h
    rw [resolve_of_idxOf_some_at h, allocate_of_mem (List.mem_of_getElem he), addressOf, hidx, h]
    rfl
  | none =>
    have hn := List.idxOf?_eq_none_iff.1 h
    rw [resolve_of_not_mem_at hn, allocate_of_not_mem hn, addressOf, List.idxOf_of_notMem hn]

theorem isPrefix_allocate (sym : SymId W) (tab : List (SymId W)) : tab <+: allocate sym tab := by
  by_cases h : sym ∈ tab
  · rw [allocate_of_mem h]
  · rw [allocate_of_not_mem h]
    exact ⟨[sym], rfl⟩

theorem mem_allocate_iff {x sym : SymId W} {tab : List (SymId W)} : x ∈ allocate sym tab ↔ x ∈ tab ∨ x = sym := by
  by_cases h : sym ∈ tab
  · rw [allocate_of_mem h]
    exact ⟨.inl, fun hx => hx.elim id fun e => e ▸ h⟩
  · rw [allocate_of_not_mem h, List.mem_append, List.mem_singleton]

theorem nodup_allocate {tab : List (SymId W)} (h : tab.Nodup) (sym : SymId W) : (allocate sym tab).Nodup := by
  by_cases hm : sym ∈ tab
  · rwa [allocate_of_mem hm]
  · rw [allocate_of_not_mem hm, ← List.concat_eq_append]
    exact h.concat hm

theorem length_allocate_le (sym : SymId W) (tab : List (SymId W)) : (allocate sym tab).length ≤ tab.length + 1 := by
  by_cases h : sym ∈ tab
  · rw [allocate_of_mem h]
    exact Nat.le_succ _
  · rw [allocate_of_not_mem h, List.length_append, List.length_singleton]

/-- Resolving again gives the same address (20_memory.md R46). -/
theorem addressOf_allocate_self (sym : SymId W) (tab : List (SymId W)) (sz : Sizes) :
    addressOf sym (allocate sym tab) sz = addressOf sym tab sz := by
  by_cases h : sym ∈ tab
  · rw [allocate_of_mem h]
  · rw [allocate_of_not_mem h, addressOf, addressOf, List.idxOf_append_of_notMem h, List.idxOf_of_notMem h]
    simp

/-- A symbol of the table keeps its address when another is allocated. -/
theorem addressOf_allocate_of_mem {x : SymId W} {tab : List (SymId W)} (h : x ∈ tab) (sym : SymId W) (sz : Sizes) :
    addressOf x (allocate sym tab) sz = addressOf x tab sz := by
  rw [addressOf, addressOf, (isPrefix_allocate sym tab).idxOf_eq_of_mem h]

/-- Different symbols never share an address. -/
theorem addressOf_ne {x y : SymId W} {tab : List (SymId W)} (hx : x ∈ tab) (hne : x ≠ y) (sz : Sizes) :
    addressOf x tab sz ≠ addressOf y tab sz := fun h =>
  hne ((List.idxOf_inj hx).1 (Nat.add_left_cancel h))

theorem addressOf_lt (sym : SymId W) (tab : List (SymId W)) (sz : Sizes) :
    addressOf sym tab sz < sz.dmemBase + (allocate sym tab).length := by
  rw [← addressOf_allocate_self]
  exact Nat.add_lt_add_left (List.idxOf_lt_length_of_mem (mem_allocate_iff.2 (.inr rfl))) _

/-! The next state of an instruction. -/

/-- DMEM after the store of DEC and STR (20_memory.md R48). -/
def storeWord (a : Nat) (x : Word W) (m : Memory W.xlen) (sz : Sizes) : Memory W.xlen :=
  if inDataRange a sz then Memory.write m a x else m

/-- The state after an instruction and the sequencer's advance. -/
def stateAfter (i : Instr W) (s : State W) (sz : Sizes := Config.sizes) : State W :=
  match i with
  | .empty | .reserved _ => advancePc s
  | .dec sym => advancePc { s with
      symtab := allocate sym s.symtab
      dmem := storeWord (addressOf sym s.symtab sz) 0 s.dmem sz }
  | .ldi n => advancePc (s.setAcc (literal n))
  | .lda sym => advancePc { s with
      symtab := allocate sym s.symtab
      acc := if inDataRange (addressOf sym s.symtab sz) sz then Memory.read s.dmem (addressOf sym s.symtab sz)
        else s.acc }
  | .str sym => advancePc { s with
      symtab := allocate sym s.symtab
      dmem := storeWord (addressOf sym s.symtab sz) s.acc s.dmem sz }
  | .xch => advancePc { s with acc := s.dr, dr := s.acc }
  | .add => advancePc (setResult (exactSum s) s)
  | .sub => advancePc (setResult (exactDiff s) s)
  | .jmp addr => s.setPc (target addr)
  | .jzs addr => s.setPc (if s.z then target addr else wrap (s.pc.toInt + 1))
  | .jvs addr => s.setPc (if s.v then target addr else wrap (s.pc.toInt + 1))
  | .hlt => s.setHalted true

/-- Every instruction completes, and `stateAfter` is the state it leaves. -/
theorem execAt_eq_next (i : Instr W) (s : State W) (sz : Sizes) : execAt i s sz = .next (stateAfter i s sz) := by
  cases i with
  | empty | ldi | xch | add | sub | jmp | hlt | reserved => rfl
  | dec sym =>
    rw [execAt, execDec_eq, resolve_eq]
    rfl
  | lda sym =>
    rw [execAt, execLda_eq, resolve_eq]
    rfl
  | str sym =>
    rw [execAt, execStr_eq, resolve_eq]
    rfl
  | jzs addr => exact jumpIf_eq_at s.z addr s
  | jvs addr => exact jumpIf_eq_at s.v addr s

theorem exec_eq_next (i : Instr) (s : State) : exec i s = .next (stateAfter i s) := by
  rw [← execAt_eq_exec, execAt_eq_next]

/-! What no instruction writes (10_state.md R16, R26, R27). -/

section
variable (i : Instr W) (s : State W) (sz : Sizes)

@[simp] theorem stateAfter_imem : (stateAfter i s sz).imem = s.imem := by cases i <;> rfl
@[simp] theorem stateAfter_execCount : (stateAfter i s sz).execCount = s.execCount := by cases i <;> rfl
@[simp] theorem stateAfter_busy : (stateAfter i s sz).busy = s.busy := by cases i <;> rfl
@[simp] theorem stateAfter_loading : (stateAfter i s sz).loading = s.loading := by cases i <;> rfl
@[simp] theorem stateAfter_runaway : (stateAfter i s sz).runaway = s.runaway := by cases i <;> rfl
@[simp] theorem stateAfter_host : (stateAfter i s sz).host = s.host := by cases i <;> rfl

/-- An instruction allocates the symbol it names, if it names one. -/
theorem stateAfter_symtab :
    (stateAfter i s sz).symtab = (symbolOf i).elim s.symtab fun sym => allocate sym s.symtab := by
  cases i <;> rfl

/-- What an instruction can do to data memory: nothing, or one store of DEC or STR. -/
theorem stateAfter_dmem_cases :
    (stateAfter i s sz).dmem = s.dmem ∨
    ∃ sym x, (i = .dec sym ∨ i = .str sym) ∧
      (stateAfter i s sz).dmem = storeWord (addressOf sym s.symtab sz) x s.dmem sz := by
  cases i with
  | dec sym => exact .inr ⟨sym, 0, .inl rfl, rfl⟩
  | str sym => exact .inr ⟨sym, s.acc, .inr rfl, rfl⟩
  | empty | ldi | lda | xch | add | sub | jmp | jzs | jvs | hlt | reserved => exact .inl rfl

end

theorem storeWord_wf {m : Memory W.xlen} (h : Memory.wf m) (a : Nat) (x : Word W) (sz : Sizes) :
    Memory.wf (storeWord a x m sz) := by
  unfold storeWord
  split
  · exact Memory.wf_write h a x
  · exact h

theorem mem_storeWord {m : Memory W.xlen} {a : Nat} {x : Word W} {sz : Sizes} {p : Nat × Word W}
    (h : p ∈ storeWord a x m sz) : p = (a, x) ∨ p ∈ m := by
  unfold storeWord at h
  split at h
  · exact Memory.mem_write h
  · exact .inr h

theorem read_storeWord {m : Memory W.xlen} (h : Memory.wf m) (a : Nat) (x : Word W) (sz : Sizes) (k : Nat) :
    Memory.read (storeWord a x m sz) k = if k = a ∧ inDataRange a sz = true then x else Memory.read m k := by
  unfold storeWord
  cases inDataRange a sz
  · simp
  · simp [Memory.read_write h]

end Sys2Proof.Machine
end

