-- ==== Sys2Proof/Proofs/Invariant.lean ====
section
/-!
SUPPORT. The invariant BlockInv, kept by every operation of the sequencer and so by every step, for a block of any
widths and sizes.
-/
namespace Sys2Proof.Machine

variable {W : Widths} {s : State W} {sz : Sizes}

/-- A cycle completes. -/
theorem cycle_eq_next (s : State W) (sz : Sizes) : cycle s sz = .next (stateAfter (decode (fetch s sz)) s sz) :=
  execAt_eq_next _ s sz

/-- The symbol of the instruction fetched is named by a slot of the instruction range: outside it the fetch sees the
empty word, which names none. -/
theorem fetch_named {sym : SymId W} (h : symbolOf (decode (fetch s sz)) = some sym) :
    ∃ a : Nat, inInstrRange a sz = true ∧ symbolOf (decode (Memory.read s.imem a)) = some sym := by
  unfold fetch at h
  split at h
  · rename_i hpc
    have hpc0 : ((s.pc.toInt.toNat : Nat) : Int) = s.pc.toInt :=
      Int.toNat_of_nonneg (le_trans (Int.natCast_nonneg _) (inInstrRange_iff_at.1 hpc).1)
    exact ⟨s.pc.toInt.toNat, by rw [hpc0]; exact hpc, h⟩
  · rw [decode_zero] at h
    cases h

/-! The operations that leave the program's state alone. -/

theorem FreshButImem.setHost (h : FreshButImem s) (x : List (HostInput W)) : FreshButImem (s.setHost x) := { h with }

theorem FreshButImem.setRunaway_false (h : FreshButImem s) : FreshButImem (s.setRunaway false) :=
  { h with runaway := rfl }

theorem FreshButImem.setBusy (h : FreshButImem s) (x : Bool) : FreshButImem (s.setBusy x) := { h with }

theorem FreshButImem.setImem (h : FreshButImem s) (x : Memory W.wordW) : FreshButImem (s.setImem x) := { h with }

theorem FreshButImem.setExecCount (h : FreshButImem s) (x : BitVec 32) : FreshButImem (s.setExecCount x) :=
  { h with }

theorem BlockInv.initial : BlockInv (State.initial : State W) sz where
  imemWf := Memory.wf_nil
  imemSlots := List.forall_mem_nil _
  dmemWf := Memory.wf_nil
  dmemAllocated := List.forall_mem_nil _
  symtabNodup := List.nodup_nil
  symtabNamed := List.forall_mem_nil _
  countBounded := Nat.zero_le _
  notBusyLoading _ := rfl
  loadingFresh hl := absurd hl Bool.false_ne_true
  runawayHalted hr := absurd hr Bool.false_ne_true

theorem BlockInv.setHost (h : BlockInv s sz) (x : List (HostInput W)) : BlockInv (s.setHost x) sz :=
  { h with loadingFresh := fun hl => (h.loadingFresh hl).setHost x }

theorem BlockInv.setRunaway_false (h : BlockInv s sz) : BlockInv (s.setRunaway false) sz :=
  { h with
    loadingFresh := fun hl => (h.loadingFresh hl).setRunaway_false
    runawayHalted := fun hr => absurd hr Bool.false_ne_true }

theorem BlockInv.setBusy_false (h : BlockInv s sz) : BlockInv (s.setBusy false) sz :=
  { h with
    notBusyLoading := fun hb => absurd hb Bool.false_ne_true
    loadingFresh := fun hl => (h.loadingFresh hl).setBusy false
    runawayHalted := fun hr => ⟨(h.runawayHalted hr).1, rfl⟩ }

theorem BlockInv.setBusy_true (h : BlockInv s sz) (hl : s.loading = false) (hr : s.runaway = false) :
    BlockInv (s.setBusy true) sz :=
  { h with
    notBusyLoading := fun _ => hl
    loadingFresh := fun hl' => absurd (hl.symm.trans hl') Bool.false_ne_true
    runawayHalted := fun hr' => absurd (hr.symm.trans hr') Bool.false_ne_true }

theorem BlockInv.setLoading_false (h : BlockInv s sz) : BlockInv (s.setLoading false) sz :=
  { h with
    notBusyLoading := fun _ => rfl
    loadingFresh := fun hl => absurd hl Bool.false_ne_true }

theorem BlockInv.setExecCount (h : BlockInv s sz) {n : BitVec 32} (hn : n.toNat ≤ sz.runawayCeiling) :
    BlockInv (s.setExecCount n) sz :=
  { h with
    countBounded := hn
    loadingFresh := fun hl => (h.loadingFresh hl).setExecCount n }

/-- The force-halt of a RUN (43_sequencer.md R103). -/
theorem BlockInv.forceHalt (h : BlockInv s sz) (hl : s.loading = false) :
    BlockInv (((s.setHalted true).setRunaway true).setBusy false) sz :=
  { h with
    notBusyLoading := fun _ => hl
    loadingFresh := fun hl' => absurd (hl.symm.trans hl') Bool.false_ne_true
    runawayHalted := fun _ => ⟨rfl, rfl⟩ }

/-! A cycle: what an instruction that IMEM holds does to SYMTAB and DMEM. -/

theorem stateAfter_symtab_named {i : Instr W} (h : BlockInv s sz)
    (hi : ∀ sym, symbolOf i = some sym →
      ∃ a : Nat, inInstrRange a sz = true ∧ symbolOf (decode (Memory.read s.imem a)) = some sym) :
    ∀ sym ∈ (stateAfter i s sz).symtab,
      ∃ a : Nat, inInstrRange a sz = true ∧ symbolOf (decode (Memory.read s.imem a)) = some sym := by
  intro sym hsym
  rw [stateAfter_symtab] at hsym
  cases hs : symbolOf i with
  | none =>
    rw [hs] at hsym
    exact h.symtabNamed sym hsym
  | some x =>
    rw [hs] at hsym
    rcases mem_allocate_iff.1 hsym with hold | rfl
    · exact h.symtabNamed sym hold
    · exact hi sym hs

theorem stateAfter_symtab_nodup (h : BlockInv s sz) (i : Instr W) : (stateAfter i s sz).symtab.Nodup := by
  rw [stateAfter_symtab]
  cases symbolOf i with
  | none => exact h.symtabNodup
  | some sym => exact nodup_allocate h.symtabNodup sym

theorem isPrefix_stateAfter_symtab (i : Instr W) (s : State W) (sz : Sizes) :
    s.symtab <+: (stateAfter i s sz).symtab := by
  rw [stateAfter_symtab]
  cases symbolOf i with
  | none => exact ⟨[], List.append_nil _⟩
  | some sym => exact isPrefix_allocate sym _

theorem stateAfter_dmem_wf (h : Memory.wf s.dmem) (i : Instr W) : Memory.wf (stateAfter i s sz).dmem := by
  rcases stateAfter_dmem_cases i s sz with hd | ⟨sym, x, -, hd⟩ <;> rw [hd]
  · exact h
  · exact storeWord_wf h _ x sz

/-- A store writes at an address its symbol has been given, so words of no symbol stay 0. -/
theorem stateAfter_dmem_allocated (h : BlockInv s sz) (i : Instr W) :
    ∀ p ∈ (stateAfter i s sz).dmem,
      sz.dmemBase ≤ p.1 ∧ p.1 < sz.dmemBase + (stateAfter i s sz).symtab.length := by
  intro p hp
  have hlen := (isPrefix_stateAfter_symtab i s sz).length_le
  have hold : p ∈ s.dmem → sz.dmemBase ≤ p.1 ∧ p.1 < sz.dmemBase + (stateAfter i s sz).symtab.length := fun hm =>
    ⟨(h.dmemAllocated p hm).1, lt_of_lt_of_le (h.dmemAllocated p hm).2 (Nat.add_le_add_left hlen _)⟩
  rcases stateAfter_dmem_cases i s sz with hd | ⟨sym, x, hi, hd⟩
  · exact hold (hd ▸ hp)
  · rcases mem_storeWord (hd ▸ hp) with rfl | hm
    · have htab : (stateAfter i s sz).symtab = allocate sym s.symtab := by
        rcases hi with rfl | rfl <;> rfl
      rw [htab]
      exact ⟨Nat.le_add_right _ _, addressOf_lt sym s.symtab sz⟩
    · exact hold hm

theorem BlockInv.after_exec (h : BlockInv s sz) (hl : s.loading = false) (hr : s.runaway = false) {i : Instr W}
    (hi : ∀ sym, symbolOf i = some sym →
      ∃ a : Nat, inInstrRange a sz = true ∧ symbolOf (decode (Memory.read s.imem a)) = some sym) :
    BlockInv (stateAfter i s sz) sz where
  imemWf := by rw [stateAfter_imem]; exact h.imemWf
  imemSlots := by rw [stateAfter_imem]; exact h.imemSlots
  dmemWf := stateAfter_dmem_wf h.dmemWf i
  dmemAllocated := stateAfter_dmem_allocated h i
  symtabNodup := stateAfter_symtab_nodup h i
  symtabNamed := by rw [stateAfter_imem]; exact stateAfter_symtab_named h hi
  countBounded := by rw [stateAfter_execCount]; exact h.countBounded
  notBusyLoading _ := by rw [stateAfter_loading]; exact hl
  loadingFresh hl' := by simp [hl] at hl'
  runawayHalted hr' := by simp [hr] at hr'

/-- A cycle, of a STEP or of a RUN. -/
theorem BlockInv.after_cycle (h : BlockInv s sz) (hl : s.loading = false) (hr : s.runaway = false) :
    BlockInv (stateAfter (decode (fetch s sz)) s sz) sz :=
  h.after_exec hl hr fun _ => fetch_named

/-! The passes of a RUN and the commands. -/

/-- What one pass of a RUN's loop can leave: a stop, the force-halt, or a counted cycle. -/
theorem runTick_next_cases (s : State W) (sz : Sizes) :
    runTick s sz = .next (s.setBusy false) ∨
    runTick s sz = .next (((s.setHalted true).setRunaway true).setBusy false) ∨
    (runStop s sz = none ∧
      runTick s sz = .next ((stateAfter (decode (fetch s sz)) s sz).setExecCount (s.execCount + 1))) := by
  rcases runTick_cases s (sz := sz) with ⟨-, h⟩ | ⟨-, h⟩ | ⟨-, h⟩ | ⟨hstop, h⟩
  · exact .inl h
  · exact .inl h
  · exact .inr (.inl h)
  · exact .inr (.inr ⟨hstop, by rw [h, cycle_eq_next, countCycle, stateAfter_execCount]⟩)

/-- What a STEP can leave: the state as it is, when halted, or the state after a cycle. -/
theorem stepCommand_next_cases (s : State W) (sz : Sizes) :
    stepCommand s sz = .next s ∨ stepCommand s sz = .next (stateAfter (decode (fetch s sz)) s sz) := by
  unfold stepCommand
  cases s.halted with
  | true => exact .inl rfl
  | false => exact .inr (cycle_eq_next s sz)

theorem BlockInv.after_runTick {t : State W} (h : BlockInv s sz) (hb : s.busy = true)
    (ht : runTick s sz = .next t) : BlockInv t sz := by
  have hl : s.loading = false := h.notBusyLoading hb
  have hr : s.runaway = false := Bool.eq_false_iff.2 fun hr =>
    absurd ((h.runawayHalted hr).2.symm.trans hb) Bool.false_ne_true
  rcases runTick_next_cases s sz with he | he | ⟨hstop, he⟩ <;> cases he.symm.trans ht
  · exact h.setBusy_false
  · exact h.forceHalt hl
  · have hcount : s.execCount.toNat < sz.runawayCeiling := (runStop_eq_none_iff_at.1 hstop).2.2
    have hwrap : (s.execCount + 1).toNat ≤ s.execCount.toNat + 1 := by
      rw [BitVec.toNat_add]
      exact Nat.mod_le _ _
    exact (h.after_cycle hl hr).setExecCount (by omega)

theorem BlockInv.after_loadBegin (h : BlockInv s sz) (scope : CeilingScope) : BlockInv (loadBegin scope s) sz := by
  have fresh : BlockInv ((powerOn s).setLoading true) sz :=
    { BlockInv.initial with
      notBusyLoading := fun hb => absurd hb Bool.false_ne_true
      loadingFresh := fun _ => ⟨rfl, rfl, rfl, rfl, rfl, rfl, rfl, rfl, rfl⟩ }
  cases scope with
  | load => exact fresh
  | session => exact fresh.setExecCount h.countBounded
  | runCommand => exact fresh.setExecCount h.countBounded

/-- A write into IMEM during a load: no symbol is allocated yet, so none loses the instruction that names it. -/
theorem BlockInv.after_imemWrite (h : BlockInv s sz) (hl : s.loading = true) (a : Int) (w : IWord W) :
    BlockInv (imemWrite a w s sz) sz := by
  have fresh := h.loadingFresh hl
  unfold imemWrite
  split
  · rename_i ha
    have ha' := inInstrRange_iff_at.1 ha
    refine { h with
      imemWf := Memory.wf_write h.imemWf _ _
      imemSlots := fun p hp => ?_
      symtabNamed := fun sym hsym => ?_
      loadingFresh := fun hl => (h.loadingFresh hl).setImem _ }
    · rcases Memory.mem_write hp with rfl | hm
      · simp only
        omega
      · exact h.imemSlots p hm
    · rw [State.setImem_symtab, fresh.symtab] at hsym
      cases hsym
  · exact h

theorem BlockInv.after_startRun (h : BlockInv s sz) (hl : s.loading = false) (hr : s.runaway = false)
    (scope : CeilingScope) : BlockInv (startRun scope s) sz := by
  cases scope with
  | runCommand => exact (h.setExecCount (n := 0) (Nat.zero_le _)).setBusy_true hl hr
  | session => exact h.setBusy_true hl hr
  | load => exact h.setBusy_true hl hr

/-- An accepted command. -/
theorem BlockInv.after_perform {t : State W} {scope : CeilingScope} {c : Command W} (h : BlockInv s sz)
    (hr : s.runaway = false) (hc : accepts s c = true) (ht : perform scope c s sz = .next t) : BlockInv t sz := by
  cases c with
  | reset =>
    cases ht
    exact BlockInv.initial.setHost s.host
  | loadBegin =>
    cases ht
    exact h.after_loadBegin scope
  | imemWrite a w =>
    cases ht
    exact h.after_imemWrite (Bool.and_eq_true_iff.1 hc).2 a w
  | loadEnd status =>
    cases ht
    exact h.setLoading_false
  | step =>
    have hl : s.loading = false := by simpa using (Bool.and_eq_true_iff.1 hc).2
    rcases stepCommand_next_cases s sz with he | he <;> cases he.symm.trans ht
    · exact h
    · exact h.after_cycle hl hr
  | run =>
    have hl : s.loading = false := by simpa using (Bool.and_eq_true_iff.1 hc).2
    cases ht
    exact h.after_startRun hl hr scope

theorem BlockInv.after_stepWith {t : State W} {scope : CeilingScope} (h : BlockInv s sz)
    (ht : stepWith scope s sz = .next t) : BlockInv t sz := by
  rcases stepWith_cases scope s (sz := sz) with ⟨-, -, he⟩ | ⟨-, hb, he⟩ | ⟨c, -, hc, he⟩ | ⟨c, -, -, he⟩ <;>
    rw [he] at ht
  · cases ht
    exact h.setHost _
  · exact (h.setHost (hostAfter s)).after_runTick hb ht
  · have hc' : accepts ((s.setHost s.host.tail).setRunaway false) c = true := by
      cases c <;> exact hc
    exact ((h.setHost _).setRunaway_false).after_perform rfl hc' ht
  · cases ht

end Sys2Proof.Machine

namespace Sys2Proof.Claims

open Sys2Proof.Machine

/-- Settles O48: the case of `BlockInv.initial` at the default widths and sizes. -/
theorem resetMeetsTheInvariant : Obligations.ResetMeetsTheInvariant := BlockInv.initial

/-- Settles O49: every operation a step is made of keeps the invariant. -/
theorem everyStepKeepsTheInvariant : Obligations.EveryStepKeepsTheInvariant :=
  ⟨fun _ _ _ _ _ h ht => h.after_stepWith ht, fun _ _ h ht => h.after_stepWith ht⟩

end Sys2Proof.Claims
end

