-- ==== Sys2Proof/Proofs/WritesAndReads.lean ====
section
/-!
SUPPORT. What every instruction writes and reads (10_state.md R14 to R16, R20 to R25), read off `stateAfter`, and
that variables of different symbols are different words.
-/
namespace Sys2Proof.Machine

open Sys2Proof.Claims

variable {W : Widths}

/-! What an instruction writes. -/

/-- PC after an instruction is the entry of the table of R20. -/
theorem stateAfter_pc (i : Instr) (s : State) : (stateAfter i s).pc = pcAfter i s := by
  cases i with
  | empty | dec | ldi | lda | str | xch | add | sub | hlt | reserved => rfl
  | jmp addr => exact target_eq addr
  | jzs addr => rw [stateAfter, State.setPc_pc, target_eq]; rfl
  | jvs addr => rw [stateAfter, State.setPc_pc, target_eq]; rfl

section
variable (i : Instr W) (s : State W) (sz : Sizes)

theorem stateAfter_acc_cases :
    (stateAfter i s sz).acc = s.acc ∨ i ∈ [.xch, .add, .sub] ∨ (∃ n, i = .ldi n) ∨ ∃ sym, i = .lda sym := by
  cases i with
  | empty | dec | str | jmp | jzs | jvs | hlt | reserved => exact .inl rfl
  | xch | add | sub => exact .inr (.inl (by simp))
  | ldi n => exact .inr (.inr (.inl ⟨n, rfl⟩))
  | lda sym => exact .inr (.inr (.inr ⟨sym, rfl⟩))

theorem stateAfter_dr_cases : (stateAfter i s sz).dr = s.dr ∨ i = .xch := by
  cases i with
  | xch => exact .inr rfl
  | empty | dec | ldi | lda | str | add | sub | jmp | jzs | jvs | hlt | reserved => exact .inl rfl

theorem stateAfter_flags_cases :
    (stateAfter i s sz).z = s.z ∧ (stateAfter i s sz).v = s.v ∨ i = .add ∨ i = .sub := by
  cases i with
  | add => exact .inr (.inl rfl)
  | sub => exact .inr (.inr rfl)
  | empty | dec | ldi | lda | str | xch | jmp | jzs | jvs | hlt | reserved => exact .inl ⟨rfl, rfl⟩

theorem stateAfter_halted_cases : (stateAfter i s sz).halted = s.halted ∨ i = .hlt := by
  cases i with
  | hlt => exact .inr rfl
  | empty | dec | ldi | lda | str | xch | add | sub | jmp | jzs | jvs | reserved => exact .inl rfl

theorem stateAfter_symtab_cases :
    (stateAfter i s sz).symtab = s.symtab ∨
    ∃ sym, symbolOf i = some sym ∧ (stateAfter i s sz).symtab = s.symtab ++ [sym] := by
  rw [stateAfter_symtab]
  cases h : symbolOf i with
  | none => exact .inl rfl
  | some sym =>
    by_cases hm : sym ∈ s.symtab
    · exact .inl (allocate_of_mem hm)
    · exact .inr ⟨sym, rfl, allocate_of_not_mem hm⟩

end

/-- Of data memory, DEC and STR write the word their symbol resolves to, when it is a data address. -/
theorem read_stateAfter_dmem_of_store {i : Instr W} {s : State W} {sz : Sizes} {sym : SymId W}
    (hi : i = .dec sym ∨ i = .str sym) (hm : Memory.wf s.dmem) {a : Nat}
    (ha : ¬ (a = addressOf sym s.symtab sz ∧ inDataRange (addressOf sym s.symtab sz) sz = true)) :
    Memory.read (stateAfter i s sz).dmem a = Memory.read s.dmem a := by
  rcases hi with rfl | rfl <;> exact (read_storeWord hm _ _ sz a).trans (if_neg ha)

/-! What an instruction reads. -/

section
variable {i : Instr W} (s : State W) (sz : Sizes)

theorem stateAfter_with_z (b : Bool) (hj : ∀ a, i ≠ .jzs a) :
    stateAfter i { s with z := b } sz = { stateAfter i s sz with z := b } ∨
    (i = .add ∨ i = .sub) ∧ stateAfter i { s with z := b } sz = stateAfter i s sz := by
  cases i with
  | jzs a => exact absurd rfl (hj a)
  | add => exact .inr ⟨.inl rfl, rfl⟩
  | sub => exact .inr ⟨.inr rfl, rfl⟩
  | empty | dec | ldi | lda | str | xch | jmp | jvs | hlt | reserved => exact .inl rfl

theorem stateAfter_with_v (b : Bool) (hj : ∀ a, i ≠ .jvs a) :
    stateAfter i { s with v := b } sz = { stateAfter i s sz with v := b } ∨
    (i = .add ∨ i = .sub) ∧ stateAfter i { s with v := b } sz = stateAfter i s sz := by
  cases i with
  | jvs a => exact absurd rfl (hj a)
  | add => exact .inr ⟨.inl rfl, rfl⟩
  | sub => exact .inr ⟨.inr rfl, rfl⟩
  | empty | dec | ldi | lda | str | xch | jmp | jzs | hlt | reserved => exact .inl rfl

theorem stateAfter_with_dr (x : Word W) (hr : i ∉ [.xch, .add, .sub]) :
    stateAfter i { s with dr := x } sz = { stateAfter i s sz with dr := x } := by
  cases i with
  | xch | add | sub => simp at hr
  | empty | dec | ldi | lda | str | jmp | jzs | jvs | hlt | reserved => rfl

/-- LDI overwrites ACC, and so does LDA of a data address; the other instructions that do not read it keep it. -/
theorem stateAfter_with_acc (x : Word W) (hr : i ∉ [.xch, .add, .sub]) (hstr : ∀ sym, i ≠ .str sym) :
    stateAfter i { s with acc := x } sz = { stateAfter i s sz with acc := x } ∨
    stateAfter i { s with acc := x } sz = stateAfter i s sz := by
  cases i with
  | xch | add | sub => simp at hr
  | str sym => exact absurd rfl (hstr sym)
  | ldi => exact .inr rfl
  | lda sym =>
    simp only [stateAfter]
    cases inDataRange (addressOf sym s.symtab sz) sz with
    | true => exact .inr rfl
    | false => exact .inl rfl
  | empty | dec | jmp | jzs | jvs | hlt | reserved => exact .inl rfl

end

/-! Variables are different words. -/

/-- A word from the end of the allocated ones on holds 0 (10_state.md R31, R39). -/
theorem BlockInv.read_dmem_of_unallocated {s : State W} {sz : Sizes} (h : BlockInv s sz) {a : Nat}
    (ha : sz.dmemBase + s.symtab.length ≤ a) : Memory.read s.dmem a = 0 :=
  Memory.read_of_not_mem fun p hp => Nat.ne_of_lt (lt_of_lt_of_le (h.dmemAllocated p hp).2 ha)

/-- Allocating one symbol does not change what the word of another holds: either the other has its address
already, or its word is one of no symbol, before and after. -/
theorem BlockInv.read_dmem_addressOf_allocate {s : State W} {sz : Sizes} (h : BlockInv s sz) (sym other : SymId W) :
    Memory.read s.dmem (addressOf other (allocate sym s.symtab) sz) =
      Memory.read s.dmem (addressOf other s.symtab sz) := by
  by_cases hm : other ∈ s.symtab
  · rw [addressOf_allocate_of_mem hm]
  · have hidx : s.symtab.idxOf other = s.symtab.length := List.idxOf_of_notMem hm
    have hle := (isPrefix_allocate sym s.symtab).idxOf_le other
    rw [addressOf, addressOf, h.read_dmem_of_unallocated (Nat.add_le_add_left (hidx ▸ hle) _),
      h.read_dmem_of_unallocated (Nat.add_le_add_left hidx.ge _)]

/-- After a store into one variable, the word of another one reads as before. -/
theorem BlockInv.read_dmem_after_store {s : State W} {sz : Sizes} (h : BlockInv s sz) {sym other : SymId W}
    (hne : sym ≠ other) :
    Memory.read (stateAfter (.str sym) s sz).dmem (addressOf other (allocate sym s.symtab) sz) =
      Memory.read s.dmem (addressOf other s.symtab sz) := by
  have haddr : addressOf other (allocate sym s.symtab) sz ≠ addressOf sym s.symtab sz := by
    rw [← addressOf_allocate_self sym]
    exact (addressOf_ne (mem_allocate_iff.2 (.inr rfl)) hne sz).symm
  rw [read_stateAfter_dmem_of_store (.inr rfl) h.dmemWf fun ha => haddr ha.1,
    h.read_dmem_addressOf_allocate]

/-- With a free entry in the table, every symbol has a data address. -/
theorem inDataRange_addressOf {tab : List SymId} (h : tab.length < 128) (sym : SymId) :
    inDataRange (addressOf sym tab) = true := by
  have hidx : tab.idxOf sym ≤ tab.length := List.idxOf_le_length
  exact inDataRange_iff.2 (show 128 ≤ 128 + tab.idxOf sym ∧ 128 + tab.idxOf sym ≤ 255 by omega)

/-- With a free entry in the table, LDA loads the word of its symbol. -/
theorem stateAfter_lda_acc {s : State} (h : s.symtab.length < 128) (sym : SymId) :
    (stateAfter (.lda sym) s).acc = Memory.read s.dmem (addressOf sym s.symtab) :=
  if_pos (inDataRange_addressOf h sym)

end Sys2Proof.Machine

namespace Sys2Proof.Claims

open Sys2Proof.Machine

/-- Settles O25: what an instruction leaves in each field is one of the laws of `stateAfter`. -/
theorem everyInstructionWritesOnlyItsOwnState : Obligations.EveryInstructionWritesOnlyItsOwnState := by
  intro i s
  refine ⟨stateAfter i s, exec_eq_next i s, stateAfter_pc i s, stateAfter_imem i s _, stateAfter_execCount i s _,
    stateAfter_busy i s _, stateAfter_loading i s _, stateAfter_runaway i s _, stateAfter_host i s _,
    stateAfter_acc_cases i s _, stateAfter_dr_cases i s _, stateAfter_flags_cases i s _,
    stateAfter_halted_cases i s _, stateAfter_symtab_cases i s _, ?stores, ?address⟩
  case stores =>
    exact (stateAfter_dmem_cases i s _).imp_right fun ⟨sym, _, hi, _⟩ => ⟨sym, hi⟩
  case address =>
    intro sym hi hm a ha
    rw [resolve_eq] at ha
    refine read_stateAfter_dmem_of_store hi hm fun ⟨heq, hrange⟩ => ?_
    have htop := (inDataRange_iff.1 hrange).2
    exact ha.elim (· heq) (Nat.not_lt.2 htop)

/-- Settles O26: `stateAfter` of a state with the register changed, for every instruction not listed as reading
it. -/
theorem registersAreReadOnlyWhereListed : Obligations.RegistersAreReadOnlyWhereListed := by
  intro i s
  simp only [exec_eq_next, Host.Outcome.next.injEq]
  refine ⟨fun b => ?z, fun b => ?v, fun x => ?dr, fun x => ?acc⟩
  case z =>
    by_cases hj : ∃ a, i = .jzs a
    · exact .inl hj
    · exact .inr ⟨_, rfl, stateAfter_with_z s _ b (not_exists.1 hj)⟩
  case v =>
    by_cases hj : ∃ a, i = .jvs a
    · exact .inl hj
    · exact .inr ⟨_, rfl, stateAfter_with_v s _ b (not_exists.1 hj)⟩
  case dr =>
    by_cases hr : i ∈ [.xch, .add, .sub]
    · exact .inl hr
    · exact .inr ⟨_, rfl, stateAfter_with_dr s _ x hr⟩
  case acc =>
    by_cases hr : i ∈ [.xch, .add, .sub]
    · exact .inl hr
    · by_cases hstr : ∃ sym, i = .str sym
      · exact .inr (.inl hstr)
      · exact .inr (.inr ⟨_, rfl, stateAfter_with_acc s _ x hr (not_exists.1 hstr)⟩)

/-- Settles O24: both loads read a data address, and the word the second symbol is given is one the store does not
touch. -/
theorem storeLeavesOtherVariablesAlone : Obligations.StoreLeavesOtherVariablesAlone := by
  intro sym other s h hfree hne
  have hlen := length_allocate_le sym s.symtab
  have hbefore : s.symtab.length < 128 := by omega
  have hafter : (stateAfter (.str sym) s).symtab.length < 128 := by
    rw [show (stateAfter (.str sym) s).symtab = allocate sym s.symtab from rfl]
    omega
  refine ⟨_, _, _, exec_eq_next _ s, exec_eq_next _ _, exec_eq_next _ s, ?_⟩
  rw [stateAfter_lda_acc hafter, stateAfter_lda_acc hbefore]
  exact h.read_dmem_after_store hne

end Sys2Proof.Claims
end

