-- ==== Sys2Proof/Proofs/SymtabAndPorts.lean ====
section
/-!
SUPPORT. SYMTAB only grows (10_state.md R31), and what the read ports show of the state (10_state.md R24, R28, R34,
R35).
-/
namespace Sys2Proof.Machine

variable {W : Widths}

/-! SYMTAB over one step. -/

/-- Every entry of SYMTAB keeps its place, and at most one is appended. -/
def SymtabGrows (s t : State W) : Prop := ∃ new : List (SymId W), t.symtab = s.symtab ++ new ∧ new.length ≤ 1

theorem SymtabGrows.of_eq {s t : State W} (h : t.symtab = s.symtab) : SymtabGrows s t :=
  ⟨[], by rw [h, List.append_nil], Nat.zero_le 1⟩

theorem symtabGrows_stateAfter (i : Instr W) (s : State W) (sz : Sizes) : SymtabGrows s (stateAfter i s sz) := by
  rcases stateAfter_symtab_cases i s sz with h | ⟨sym, -, h⟩
  · exact .of_eq h
  · exact ⟨[sym], h, Nat.le_refl 1⟩

theorem symtabGrows_runTick {s t : State W} {sz : Sizes} (ht : runTick s sz = .next t) : SymtabGrows s t := by
  rcases runTick_next_cases s sz with he | he | ⟨-, he⟩ <;> cases he.symm.trans ht
  · exact .of_eq rfl
  · exact .of_eq rfl
  · exact symtabGrows_stateAfter _ s sz

theorem symtabGrows_perform {scope : CeilingScope} {c : Command W} {s t : State W} {sz : Sizes}
    (ht : perform scope c s sz = .next t) : SymtabGrows s t ∨ c = .reset ∨ c = .loadBegin := by
  cases c with
  | reset => exact .inr (.inl rfl)
  | loadBegin => exact .inr (.inr rfl)
  | imemWrite a w =>
    cases ht
    refine .inl (.of_eq ?_)
    unfold imemWrite
    split <;> rfl
  | loadEnd status =>
    cases ht
    exact .inl (.of_eq rfl)
  | step =>
    rcases stepCommand_next_cases s sz with he | he <;> cases he.symm.trans ht
    · exact .inl (.of_eq rfl)
    · exact .inl (symtabGrows_stateAfter _ s sz)
  | run =>
    cases ht
    refine .inl (.of_eq ?_)
    cases scope <;> rfl

theorem symtabGrows_stepWith {scope : CeilingScope} {s t : State W} {sz : Sizes}
    (ht : stepWith scope s sz = .next t) :
    SymtabGrows s t ∨ commandTaken s = some .reset ∨ commandTaken s = some .loadBegin := by
  rcases stepWith_cases scope s (sz := sz) with ⟨-, -, he⟩ | ⟨-, -, he⟩ | ⟨c, hc, -, he⟩ | ⟨c, -, -, he⟩ <;>
    rw [he] at ht
  · cases ht
    exact .inl (.of_eq rfl)
  · exact .inl (symtabGrows_runTick (s := s.setHost (hostAfter s)) ht)
  · rw [hc, Option.some_inj, Option.some_inj]
    exact symtabGrows_perform (s := (s.setHost s.host.tail).setRunaway false) ht
  · cases ht

/-! The read ports. -/

/-- STATUS as a number: bit 0 is Z, bit 1 V, bit 2 H (10_state.md R24). -/
theorem statusView_toNat (s : State W) :
    (statusView s).toNat = s.z.toNat + 2 * s.v.toNat + 4 * s.halted.toNat := by
  unfold statusView
  cases s.z <;> cases s.v <;> cases s.halted <;> rfl

theorem symCount_toNat {s : State W} (h : s.symtab.length ≤ 255) : (symCount s).toNat = s.symtab.length := by
  rw [symCount, BitVec.toNat_ofNat]
  exact Nat.mod_eq_of_lt (Nat.lt_succ_of_le h)

/-- The diagnostic port at an instruction address (10_state.md R35). -/
theorem diag_of_inInstrRange {a : Nat} {sz : Sizes} (h : inInstrRange a sz = true) (s : State W) :
    diag a s sz = some (.slot (Memory.read s.imem a)) := if_pos h

/-- The diagnostic port at a data address, which is no instruction address. -/
theorem diag_of_inDataRange {k : Nat} {sz : Sizes} (h : inDataRange (sz.dmemBase + k) sz = true) (s : State W) :
    diag (sz.dmemBase + k : Nat) s sz =
      some (.data (Memory.read s.dmem (sz.dmemBase + k)) s.symtab[k]?) := by
  have hslot : ¬ inInstrRange (sz.dmemBase + k : Nat) sz = true := by
    rw [inInstrRange_iff_at, Sizes.dmemBase]
    omega
  rw [diag, if_neg hslot, if_pos ⟨Int.natCast_nonneg _, h⟩, Int.toNat_natCast, Nat.add_sub_cancel_left]
  rfl

end Sys2Proof.Machine

namespace Sys2Proof.Claims

open Sys2Proof.Machine

/-- Settles O28: a cycle appends at most the symbol of its instruction, and of the commands only RESET and
LOAD_BEGIN touch the table. -/
theorem symtabOnlyGrows : Obligations.SymtabOnlyGrows := fun _ _ _ ht => symtabGrows_stepWith ht

/-- Settles O52: one law for each port. -/
theorem portsShowTheState : Obligations.PortsShowTheState := by
  intro s
  refine ⟨⟨rfl, rfl, rfl, rfl, rfl, rfl, rfl, rfl⟩, fun h => symCount_toNat (h.trans (by decide)),
    statusView_toNat s, fun a ha => ?slot, fun k hk => ?data⟩
  case slot => exact diag_of_inInstrRange (inInstrRange_iff.2 (by omega)) s
  case data =>
    have hk' : 128 ≤ 128 + k ∧ 128 + k ≤ 255 := by omega
    exact diag_of_inDataRange (sz := Config.sizes) (inDataRange_iff.2 hk') s

end Sys2Proof.Claims
end

