-- ==== Sys2Proof/Proofs/Resolve.lean ====
section
/-!
SUPPORT. The addresses Resolve gives (20_memory.md R44, R46 to R48): one symbol, a list of new symbols, the bound
the invariant puts on SYMTAB, and an access at an address outside the data range.
-/
namespace Sys2Proof.Machine

open Sys2Proof.Claims

variable {W : Widths}

/-! One symbol (R44, R46). -/

/-- A symbol whose first entry is entry `i` has the address of that entry. -/
theorem resolve_of_first_entry {sym : SymId W} {s : State W} {i : Nat} (h : s.symtab[i]? = some sym)
    (hfirst : ∀ j < i, s.symtab[j]? ≠ some sym) (sz : Sizes) : resolve sym s sz = (sz.dmemBase + i, s) := by
  obtain ⟨hi, he⟩ := List.getElem?_eq_some_iff.1 h
  refine resolve_of_idxOf_some_at (List.idxOf?_eq_some_iff.2 ⟨hi, he, fun j hj hje => hfirst j hj ?_⟩) sz
  rw [List.getElem?_eq_getElem (hj.trans hi), hje]

theorem resolve_resolve (sym : SymId W) (s : State W) (sz : Sizes) :
    resolve sym (resolve sym s sz).2 sz = resolve sym s sz := by
  have hmem : sym ∈ allocate sym s.symtab := mem_allocate_iff.2 (.inr rfl)
  simp only [resolve_eq, State.setSymtab_symtab, addressOf_allocate_self, allocate_of_mem hmem]
  rfl

/-! A list of new symbols (R46). -/

/-- New distinct symbols get the addresses from the end of the table on, and are appended in their order. -/
theorem resolveAll_of_nodup {syms : List SymId} {s : State} (h : (s.symtab ++ syms).Nodup) :
    resolveAll syms s =
      (List.range' (128 + s.symtab.length) syms.length, s.setSymtab (s.symtab ++ syms)) := by
  induction syms generalizing s with
  | nil => rw [List.append_nil]; rfl
  | cons sym syms ih =>
    have hnew : sym ∉ s.symtab := fun hm => (List.nodup_append.1 h).2.2 sym hm sym List.mem_cons_self rfl
    have htail : ((s.symtab ++ [sym]) ++ syms).Nodup := by rwa [List.append_assoc]
    simp only [resolveAll, resolve_of_not_mem hnew]
    rw [ih (s := s.setSymtab (s.symtab ++ [sym])) htail, State.setSymtab_symtab, List.length_append,
      List.append_assoc]
    rfl

/-! The bound on SYMTAB (R47). -/

/-- The symbols the slots of the instruction range name, slot by slot. -/
def slotSymbols (imem : Memory W.wordW) (sz : Sizes) : List (SymId W) :=
  (List.range' sz.imemBase sz.imemCap).filterMap fun a => symbolOf (decode (Memory.read imem a))

theorem mem_slotSymbols_iff {imem : Memory W.wordW} {sz : Sizes} {sym : SymId W} :
    sym ∈ slotSymbols imem sz ↔
      ∃ a : Nat, inInstrRange a sz = true ∧ symbolOf (decode (Memory.read imem a)) = some sym := by
  simp only [slotSymbols, List.mem_filterMap, List.mem_range'_1, inInstrRange_natCast_iff]

theorem length_slotSymbols_le (imem : Memory W.wordW) (sz : Sizes) : (slotSymbols imem sz).length ≤ sz.symtabCap :=
  (List.length_filterMap_le _ _).trans_eq List.length_range'

/-- Distinct symbols that all are named by a slot are at most as many as the slots. -/
theorem length_le_symtabCap {tab : List (SymId W)} {imem : Memory W.wordW} {sz : Sizes} (hnodup : tab.Nodup)
    (hnamed : ∀ sym ∈ tab, ∃ a : Nat, inInstrRange a sz = true ∧ symbolOf (decode (Memory.read imem a)) = some sym) :
    tab.length ≤ sz.symtabCap :=
  (List.subperm_of_subset hnodup fun sym hsym => mem_slotSymbols_iff.2 (hnamed sym hsym)).length_le.trans
    (length_slotSymbols_le imem sz)

section
variable {s : State W} {sz : Sizes}

theorem BlockInv.symtab_length_le (h : BlockInv s sz) : s.symtab.length ≤ sz.symtabCap :=
  length_le_symtabCap h.symtabNodup h.symtabNamed

/-- The table still fits when the symbol of the instruction about to run is in it: that symbol is named by a slot
too. -/
theorem BlockInv.length_allocate_le (h : BlockInv s sz) {sym : SymId W}
    (hsym : symbolOf (decode (fetch s sz)) = some sym) : (allocate sym s.symtab).length ≤ sz.symtabCap := by
  refine length_le_symtabCap (imem := s.imem) (nodup_allocate h.symtabNodup sym) fun x hx => ?_
  rcases mem_allocate_iff.1 hx with hold | rfl
  · exact h.symtabNamed x hold
  · exact fetch_named hsym

/-- The symbol of the instruction about to run resolves to an address of the table's, with the table within its
size after it. -/
theorem BlockInv.resolve_bounds (h : BlockInv s sz) {sym : SymId W}
    (hsym : symbolOf (decode (fetch s sz)) = some sym) :
    sz.dmemBase ≤ (resolve sym s sz).1 ∧ (resolve sym s sz).1 < sz.dmemBase + sz.symtabCap ∧
      (resolve sym s sz).2.symtab.length ≤ sz.symtabCap := by
  have hlen := h.length_allocate_le hsym
  rw [resolve_eq]
  exact ⟨Nat.le_add_right _ _, (addressOf_lt sym s.symtab sz).trans_le (Nat.add_le_add_left hlen _), hlen⟩

/-! An access outside the data range (R48). -/

theorem stateAfter_of_out_of_range {sym : SymId W} (hout : inDataRange (addressOf sym s.symtab sz) sz = false)
    {i : Instr W} (hi : symbolOf i = some sym) :
    stateAfter i s sz = { s with symtab := allocate sym s.symtab, pc := s.pc + 1 } := by
  rw [← wrap_succ s.pc]
  cases i with
  | dec _ | lda _ | str _ =>
    cases hi
    simp only [stateAfter, storeWord, hout]
    rfl
  | empty | ldi | xch | add | sub | jmp | jzs | jvs | hlt | reserved => cases hi

end

end Sys2Proof.Machine

namespace Sys2Proof.Claims

open Sys2Proof.Machine

/-- Settles O17: the two cases of Resolve, at the default sizes. -/
theorem resolveFindsOrAllocates : Obligations.ResolveFindsOrAllocates := fun _ _ =>
  ⟨fun _ h hfirst => resolve_of_first_entry h hfirst Config.sizes, resolve_of_not_mem⟩

/-- Settles O18: the addresses follow by induction on the list of symbols, from any table that holds none of them. -/
theorem resolveIsIdempotentAndInFirstUseOrder : Obligations.ResolveIsIdempotentAndInFirstUseOrder := by
  refine ⟨fun sym s => resolve_resolve sym s _, fun syms s hnodup hempty => ?_⟩
  rw [resolveAll_of_nodup (by rwa [hempty]), hempty, List.range'_eq_map_range]
  exact ⟨rfl, rfl⟩

/-- Settles O50: each symbol of the table, and the one about to be resolved, takes a slot of its own that names it. -/
theorem symbolsAlwaysResolveInRange : Obligations.SymbolsAlwaysResolveInRange := by
  refine ⟨fun W sz s h => ⟨h.symtab_length_le, fun sym hsym => ?anySizes⟩,
    fun s h => ⟨h.symtab_length_le, fun sym hsym => ?defaults⟩⟩
  case anySizes =>
    obtain ⟨hbase, htop, hlen⟩ := h.resolve_bounds hsym
    refine ⟨hbase, htop, hlen, fun hcap => Nat.le_sub_one_of_lt (htop.trans_le ?_)⟩
    exact Nat.add_le_add_left hcap _
  case defaults =>
    obtain ⟨hbase, htop, hlen⟩ := h.resolve_bounds hsym
    exact ⟨hbase, Nat.le_of_lt_succ htop, hlen⟩

/-- Settles O59: the next state of an instruction whose symbol has no data address. -/
theorem outOfRangeAccessDoesNothing : Obligations.OutOfRangeAccessDoesNothing := by
  intro W sz sym s htop i hi
  have hsym : symbolOf i = some sym := by
    simp only [List.mem_cons, List.not_mem_nil, or_false] at hi
    rcases hi with rfl | rfl | rfl <;> rfl
  rw [resolve_eq] at htop ⊢
  have hout : inDataRange (addressOf sym s.symtab sz) sz = false :=
    Bool.eq_false_iff.2 fun hrange => Nat.not_le_of_lt htop (inDataRange_iff_at.1 hrange).2
  rw [execAt_eq_next, stateAfter_of_out_of_range hout hsym]
  rfl

end Sys2Proof.Claims
end

