-- ==== Sys2Proof/Proofs/LoadPort.lean ====
section
/-!
SUPPORT. IMEM over one step (20_memory.md R53, 10_state.md R29): no cycle writes it, and of the commands only RESET,
LOAD_BEGIN and IMEM_WRITE do.
-/
namespace Sys2Proof.Machine

variable {W : Widths}

theorem runTick_imem {s t : State W} {sz : Sizes} (ht : runTick s sz = .next t) : t.imem = s.imem := by
  rcases runTick_next_cases s sz with he | he | ⟨-, he⟩ <;> cases he.symm.trans ht
  · rfl
  · rfl
  · exact stateAfter_imem _ s sz

theorem stepCommand_imem {s t : State W} {sz : Sizes} (ht : stepCommand s sz = .next t) : t.imem = s.imem := by
  rcases stepCommand_next_cases s sz with he | he <;> cases he.symm.trans ht
  · rfl
  · exact stateAfter_imem _ s sz

@[simp] theorem startRun_imem (scope : CeilingScope) (s : State W) : (startRun scope s).imem = s.imem := by
  cases scope <;> rfl

theorem perform_imem_cases {scope : CeilingScope} {c : Command W} {s t : State W} {sz : Sizes}
    (ht : perform scope c s sz = .next t) :
    t.imem = s.imem ∨ c = .reset ∨ c = .loadBegin ∨ ∃ a w, c = .imemWrite a w := by
  cases c with
  | reset => exact .inr (.inl rfl)
  | loadBegin => exact .inr (.inr (.inl rfl))
  | imemWrite a w => exact .inr (.inr (.inr ⟨a, w, rfl⟩))
  | loadEnd status =>
    cases ht
    exact .inl rfl
  | step => exact .inl (stepCommand_imem ht)
  | run =>
    cases ht
    exact .inl (startRun_imem scope s)

/-- An IMEM_WRITE is accepted only during a load (43_sequencer.md R95). -/
theorem loading_of_accepts_imemWrite {s : State W} {a : Int} {w : IWord W}
    (h : accepts s (.imemWrite a w) = true) : s.loading = true := (Bool.and_eq_true_iff.1 h).2

theorem stepWith_imem_cases {scope : CeilingScope} {s t : State W} {sz : Sizes}
    (ht : stepWith scope s sz = .next t) :
    t.imem = s.imem ∨ commandTaken s = some .reset ∨ commandTaken s = some .loadBegin ∨
      ∃ a w, commandTaken s = some (.imemWrite a w) ∧ s.loading = true := by
  rcases stepWith_cases scope s (sz := sz) with ⟨-, -, he⟩ | ⟨-, -, he⟩ | ⟨c, hc, hacc, he⟩ | ⟨c, -, -, he⟩ <;>
    rw [he] at ht
  · cases ht
    exact .inl rfl
  · exact .inl (runTick_imem (s := s.setHost (hostAfter s)) ht)
  · rw [hc]
    rcases perform_imem_cases ht with hkept | rfl | rfl | ⟨a, w, rfl⟩
    · exact .inl hkept
    · exact .inr (.inl rfl)
    · exact .inr (.inr (.inl rfl))
    · exact .inr (.inr (.inr ⟨a, w, rfl, loading_of_accepts_imemWrite hacc⟩))
  · cases ht

end Sys2Proof.Machine

namespace Sys2Proof.Claims

open Sys2Proof.Machine

/-- Settles O27: what a step leaves in IMEM, at the default widths and sizes. -/
theorem imemChangesOnlyThroughTheLoadPort : Obligations.ImemChangesOnlyThroughTheLoadPort :=
  fun _ _ _ ht => stepWith_imem_cases ht

end Sys2Proof.Claims
end

