-- ==== Sys2Proof/Proofs/Encoding.lean ====
section
/-!
SUPPORT. An instruction as an opcode and an operand (30_encoding.md R55 to R57, R61, R64): what the decoder makes of
the two fields of a word, that it undoes the encoder, and the rows of the opcode table by the opcode field alone.
-/
namespace Sys2Proof

variable {W : Widths}

/-! The opcode and the operand of an instruction. -/

/-- OP of an instruction's word. -/
def opcodeOf : Instr W → OpCode
  | .empty => 0
  | .dec _ => 1
  | .ldi _ => 2
  | .lda _ => 3
  | .str _ => 4
  | .xch => 5
  | .add => 6
  | .sub => 7
  | .jmp _ => 8
  | .jzs _ => 9
  | .jvs _ => 10
  | .hlt => 11
  | .reserved op => op

/-- The operand an instruction carries: none in format N (R57). -/
def operandOf : Instr W → Option (Opnd W)
  | .dec x | .ldi x | .lda x | .str x | .jmp x | .jzs x | .jvs x => some x
  | .empty | .xch | .add | .sub | .hlt | .reserved _ => none

theorem encode_eq_mkWord (i : Instr W) : encode i = mkWord (opcodeOf i) ((operandOf i).getD 0) := by
  cases i <;> rfl

theorem decode_encode {i : Instr W} (h : i.wf = true) : decode (encode i) = i := by
  cases i with
  | reserved op => exact decode_mkWord_reserved_at 0 (of_decide_eq_true h)
  | empty | dec | ldi | lda | str | xch | add | sub | jmp | jzs | jvs | hlt => exact decode_mkWord_at _ _

/-- A well-formed instruction is its opcode and its operand. -/
theorem Instr.ext_of_wf {i j : Instr W} (hi : i.wf = true) (hj : j.wf = true) (hop : opcodeOf i = opcodeOf j)
    (hopnd : operandOf i = operandOf j) : i = j := by
  rw [← decode_encode hi, ← decode_encode hj, encode_eq_mkWord, encode_eq_mkWord, hop, hopnd]

/-! The instruction a word decodes to. -/

/-- What the decoder makes of a word: a well-formed instruction of the word's opcode, with the operand field as its
operand outside format N. -/
theorem decode_spec (w : IWord W) :
    (decode w).wf = true ∧ opcodeOf (decode w) = opField w ∧
    operandOf (decode w) =
      if (opField w).toNat ∈ [0, 5, 6, 7, 11, 12, 13, 14, 15] then none else some (opndField w) := by
  have hlt : (opField w).toNat < 16 := (opField w).isLt
  unfold decode
  split
  case h_13 =>
    simp only [imp_false] at *
    have hformat : (opField w).toNat ∈ [0, 5, 6, 7, 11, 12, 13, 14, 15] := by
      simp only [List.mem_cons, List.not_mem_nil]
      omega
    exact ⟨decide_eq_true (by omega), rfl, (if_pos hformat).symm⟩
  all_goals
    refine ⟨rfl, BitVec.eq_of_toNat_eq (Eq.symm ‹_›), ?_⟩
    simp only [‹(opField w).toNat = _›]
    rfl

theorem wf_decode (w : IWord W) : (decode w).wf = true := (decode_spec w).1

theorem opcodeOf_decode (w : IWord W) : opcodeOf (decode w) = opField w := (decode_spec w).2.1

theorem operandOf_decode (w : IWord W) :
    operandOf (decode w) =
      if (opField w).toNat ∈ [0, 5, 6, 7, 11, 12, 13, 14, 15] then none else some (opndField w) := (decode_spec w).2.2

/-- What the decoder reads of a word: OP, and OPND outside format N. -/
theorem decode_eq_iff {w w' : IWord W} :
    decode w = decode w' ↔ opField w = opField w' ∧
      ((opField w).toNat ∈ [0, 5, 6, 7, 11, 12, 13, 14, 15] ∨ opndField w = opndField w') := by
  have hfields : decode w = decode w' ↔
      opcodeOf (decode w) = opcodeOf (decode w') ∧ operandOf (decode w) = operandOf (decode w') :=
    ⟨fun h => h ▸ ⟨rfl, rfl⟩, fun h => Instr.ext_of_wf (wf_decode w) (wf_decode w') h.1 h.2⟩
  rw [hfields, opcodeOf_decode, opcodeOf_decode, operandOf_decode, operandOf_decode]
  refine and_congr_right fun hop => ?_
  rw [← hop]
  split
  case isTrue hN => exact iff_of_true rfl (.inl hN)
  case isFalse hN => exact Option.some_inj.trans (or_iff_right hN).symm

/-! The rows of the opcode table (R61). -/

/-- The opcode that stands for a row: 12 for the reserved row, which takes four opcodes. -/
def rowOp (op : OpCode) : OpCode := if 12 ≤ op.toNat then 12 else op

/-- The mask on OP of the row `r` stands for. -/
def opMask (r : OpCode) : OpCode := if r = 12 then 12 else 15

theorem and_opMask_eq_iff : ∀ op r : OpCode, r.toNat ≤ 12 → (op &&& opMask r = r ↔ r = rowOp op) := by decide

/-- The opcode that stands for an instruction's row, whatever opcode a reserved instruction carries. -/
def rowOpOf : Instr W → OpCode
  | .reserved _ => 12
  | i => opcodeOf i

theorem rowOpOf_le (i : Instr W) : (rowOpOf i).toNat ≤ 12 := by
  cases i <;> exact Nat.le_of_ble_eq_true rfl

theorem rowMatch_eq_mkWord (i : Instr W) : rowMatch i = mkWord (rowOpOf i) 0 := by cases i <;> rfl

theorem rowMask_eq_mkWord (i : Instr W) : rowMask i = mkWord (opMask (rowOpOf i)) 0 := by cases i <;> rfl

theorem rowOpOf_of_wf {i : Instr W} (h : i.wf = true) : rowOpOf i = rowOp (opcodeOf i) := by
  cases i with
  | reserved op => exact (if_pos (of_decide_eq_true h)).symm
  | empty | dec | ldi | lda | str | xch | add | sub | jmp | jzs | jvs | hlt => rfl

theorem mkWord_inj_op {op op' : OpCode} : mkWord op (0 : Opnd W) = mkWord op' 0 ↔ op = op' :=
  ⟨fun h => by rw [← opField_mkWord_at op (0 : Opnd W), h, opField_mkWord_at], fun h => h ▸ rfl⟩

theorem and_mkWord_zero (w : IWord W) (m : OpCode) : w &&& mkWord m 0 = mkWord (opField w &&& m) 0 := by
  conv_lhs => rw [← mkWord_fields_at w]
  rw [mkWord, mkWord, BitVec.and_append, show opndField w &&& 0 = 0 from BitVec.and_zero]
  rfl

/-- A word lies in an instruction's row exactly when that row is the row of the instruction it decodes to. -/
theorem inRowOf_iff {i : Instr W} {w : IWord W} : inRowOf i w = true ↔ rowMatch i = rowMatch (decode w) := by
  rw [inRowOf, beq_iff_eq, rowMask_eq_mkWord, rowMatch_eq_mkWord, rowMatch_eq_mkWord, and_mkWord_zero, mkWord_inj_op,
    mkWord_inj_op, and_opMask_eq_iff _ _ (rowOpOf_le i), rowOpOf_of_wf (wf_decode w), opcodeOf_decode]

end Sys2Proof

namespace Sys2Proof.Claims

open Sys2Proof.Machine

theorem wordOf_toNat (op : OpCode) (opnd : BitVec 32) : wordOf op.toNat opnd = mkWord op opnd := by
  apply BitVec.eq_of_toNat_eq
  rw [wordOf, ← mkWord_toNat]
  exact Nat.mod_eq_of_lt (IWord.toNat_lt _)

/-- The decoder on a word given by its fields as numbers. -/
theorem decode_wordOf (op : OpCode) (opnd : BitVec 32) {i : Instr} (h : decode (mkWord op opnd) = i) :
    decode (wordOf op.toNat opnd) = i := by rw [wordOf_toNat, h]

/-- Settles O3: `decode_encode`, and every word decodes to an instruction it applies to. -/
theorem decodeUndoesEncode : Obligations.DecodeUndoesEncode := fun _ =>
  ⟨fun _ => decode_encode, fun w => ⟨wf_decode w, decode_encode (wf_decode w)⟩⟩

/-- Settles O2: the law of the decoder at each opcode; a reserved instruction and the empty slot only retire. -/
theorem decoderFollowsItsCaseTable : Obligations.DecoderFollowsItsCaseTable := by
  intro opnd
  exact ⟨decode_wordOf 0 opnd (decode_mkWord 0 opnd), decode_wordOf 1 opnd (decode_mkWord 1 opnd),
    decode_wordOf 2 opnd (decode_mkWord 2 opnd), decode_wordOf 3 opnd (decode_mkWord 3 opnd),
    decode_wordOf 4 opnd (decode_mkWord 4 opnd), decode_wordOf 5 opnd (decode_mkWord 5 opnd),
    decode_wordOf 6 opnd (decode_mkWord 6 opnd), decode_wordOf 7 opnd (decode_mkWord 7 opnd),
    decode_wordOf 8 opnd (decode_mkWord 8 opnd), decode_wordOf 9 opnd (decode_mkWord 9 opnd),
    decode_wordOf 10 opnd (decode_mkWord 10 opnd), decode_wordOf 11 opnd (decode_mkWord 11 opnd),
    fun op h => ⟨decode_wordOf op opnd (decode_mkWord_reserved opnd h), fun _ => rfl⟩⟩

/-- Settles O4: `inRowOf_iff`, read at the instruction decoded and at any other. -/
theorem everyWordSelectsExactlyOneRow : Obligations.EveryWordSelectsExactlyOneRow := fun _ =>
  ⟨inRowOf_iff.2 rfl, fun _ => inRowOf_iff.1⟩

/-- Settles O5: `decode_eq_iff`, with the two fields as numbers. -/
theorem wordsDecodeAlikeExactlyUpToIgnoredOperand : Obligations.WordsDecodeAlikeExactlyUpToIgnoredOperand := by
  intro w w'
  simp only [decode_eq_iff, ← BitVec.toNat_inj, opField_toNat, opndField_toNat]

/-- Settles O1: the encoder computes each word, and the decoder undoes it. -/
theorem tableOfEncodingsReadsBothWays : Obligations.TableOfEncodingsReadsBothWays := by
  have readsBack : ∀ {i : Instr} {w : IWord}, i.wf = true → encode i = w → encode i = w ∧ decode w = i :=
    fun hwf h => ⟨h, h ▸ decode_encode hwf⟩
  simp only [Obligations.TableOfEncodingsReadsBothWays, List.forall_mem_cons]
  exact ⟨readsBack rfl rfl, readsBack rfl rfl, readsBack rfl rfl, readsBack rfl rfl, readsBack rfl rfl,
    readsBack rfl rfl, readsBack rfl rfl, readsBack rfl rfl, readsBack rfl rfl, readsBack rfl rfl,
    readsBack rfl rfl, readsBack rfl rfl, readsBack rfl rfl, readsBack rfl rfl, readsBack rfl rfl,
    readsBack rfl rfl, List.forall_mem_nil _⟩

end Sys2Proof.Claims
end

