-- ==== Sys2Proof/Proofs/Renaming.lean ====
section
/-!
SUPPORT. Symbol ids are names only (20_memory.md R44, 30_encoding.md R60): every operation a step is made of does the
same to a state with its ids renamed one-to-one. Each law here says that one of them commutes with the renaming.
-/
namespace Sys2Proof.Claims

open Sys2Proof.Machine

/-! Words and instructions. -/

/-- An instruction with its symbol id, if it names one, renamed. -/
def renameInstr (f : SymId → SymId) : Instr → Instr
  | .dec sym => .dec (f sym)
  | .lda sym => .lda (f sym)
  | .str sym => .str (f sym)
  | i => i

section
variable (f : SymId → SymId)

theorem decode_renameWord (w : IWord) : decode (renameWord f w) = renameInstr f (decode w) := by
  unfold renameWord
  cases h : decode w with
  | dec | lda | str => exact decode_encode rfl
  | empty | ldi | xch | add | sub | jmp | jzs | jvs | hlt | reserved => exact h

theorem renameWord_zero : renameWord f 0 = 0 := by
  unfold renameWord
  rw [decode_zero]

/-- A word that names a symbol is never the empty word, before or after the renaming. -/
theorem renameWord_eq_zero_iff {w : IWord} : renameWord f w = 0 ↔ w = 0 := by
  refine ⟨fun h => ?_, fun h => h ▸ renameWord_zero f⟩
  have hempty : renameInstr f (decode w) = .empty := by rw [← decode_renameWord, h, decode_zero]
  unfold renameWord at h
  cases hw : decode w with
  | dec | lda | str =>
    rw [hw] at hempty
    cases hempty
  | empty | ldi | xch | add | sub | jmp | jzs | jvs | hlt | reserved =>
    rw [hw] at h
    exact h

end

/-! Memories: the renaming of words goes through reads and writes, since it maps 0 and nothing else to 0. -/

section
variable {w : Nat} {g : BitVec w → BitVec w}

theorem read_map (hg : g 0 = 0) (m : Memory w) (a : Nat) :
    Memory.read (m.map fun p => (p.1, g p.2)) a = g (Memory.read m a) := by
  induction m with
  | nil => exact hg.symm
  | cons p m ih =>
    simp only [List.map_cons, Memory.read, ih]
    split
    · rfl
    · split
      · exact hg.symm
      · rfl

theorem write_map (hg : ∀ {x}, g x = 0 ↔ x = 0) (m : Memory w) (a : Nat) (x : BitVec w) :
    Memory.write (m.map fun p => (p.1, g p.2)) a (g x) = (Memory.write m a x).map fun p => (p.1, g p.2) := by
  induction m with
  | nil =>
    simp only [List.map_nil, Memory.write, hg]
    split <;> rfl
  | cons p m ih =>
    simp only [List.map_cons, Memory.write, hg, ih]
    split
    · split <;> rfl
    · split
      · split <;> rfl
      · rfl

end

/-! SYMTAB: a one-to-one renaming keeps the place of every symbol. -/

section
variable {f : SymId → SymId} (hf : Function.Injective f)
include hf

theorem idxOf_map_of_injective (sym : SymId) (tab : List SymId) : (tab.map f).idxOf (f sym) = tab.idxOf sym := by
  induction tab with
  | nil => rfl
  | cons x tab ih =>
    rw [List.map_cons, List.idxOf_cons, List.idxOf_cons, ih]
    simp only [beq_eq_decide, hf.eq_iff]

theorem addressOf_map (sym : SymId) (tab : List SymId) : addressOf (f sym) (tab.map f) = addressOf sym tab := by
  rw [addressOf, addressOf, idxOf_map_of_injective hf]

theorem allocate_map (sym : SymId) (tab : List SymId) : allocate (f sym) (tab.map f) = (allocate sym tab).map f := by
  by_cases h : sym ∈ tab
  · rw [allocate_of_mem h, allocate_of_mem (List.mem_map_of_mem h)]
  · rw [allocate_of_not_mem h, allocate_of_not_mem (mt (List.mem_map_of_injective hf).1 h), List.map_append]
    rfl

/-! One cycle and one pass of a RUN. -/

theorem stateAfter_rename (i : Instr) (s : State) :
    stateAfter (renameInstr f i) (renameState f s) = renameState f (stateAfter i s) := by
  have haddr := fun sym => addressOf_map hf sym s.symtab
  have halloc := fun sym => allocate_map hf sym s.symtab
  cases i with
  | dec sym | lda sym | str sym =>
    simp only [renameInstr, stateAfter, renameState, haddr, halloc]
    rfl
  | empty | ldi | xch | add | sub | jmp | jzs | jvs | hlt | reserved => rfl

omit hf in
theorem fetch_rename (s : State) : fetch (renameState f s) = renameWord f (fetch s) := by
  unfold fetch
  rw [apply_ite (renameWord f), renameWord_zero, ← read_map (renameWord_zero f)]
  rfl

/-- The state after one cycle. -/
theorem stateAfter_fetch_rename (s : State) :
    stateAfter (decode (fetch (renameState f s))) (renameState f s) =
      renameState f (stateAfter (decode (fetch s)) s) := by
  rw [fetch_rename, decode_renameWord, stateAfter_rename hf]

theorem cycle_rename (s : State) : cycle (renameState f s) = renameOutcome f (cycle s) := by
  rw [cycle_eq_next, cycle_eq_next, stateAfter_fetch_rename hf]
  rfl

theorem runTick_rename (s : State) : runTick (renameState f s) = renameOutcome f (runTick s) := by
  have hstop : runStop (renameState f s) = runStop s := rfl
  rcases runTick_cases s with ⟨h, ht⟩ | ⟨h, ht⟩ | ⟨h, ht⟩ | ⟨h, ht⟩ <;> rw [ht, runTick, hstop, h]
  · rfl
  · rfl
  · rfl
  · simp only [cycle_rename hf, cycle_eq_next]
    rfl

/-! The commands of the host. -/

theorem stepCommand_rename (s : State) : stepCommand (renameState f s) = renameOutcome f (stepCommand s) := by
  unfold stepCommand
  rw [apply_ite (renameOutcome f), cycle_rename hf]
  rfl

omit hf in
theorem imemWrite_rename (a : Int) (w : IWord) (s : State) :
    imemWrite a (renameWord f w) (renameState f s) = renameState f (imemWrite a w s) := by
  unfold imemWrite
  rw [apply_ite (renameState f)]
  simp only [renameState, State.setImem, write_map (renameWord_eq_zero_iff f)]

theorem perform_rename (scope : CeilingScope) (c : Command) (s : State) :
    perform scope (renameCommand f c) (renameState f s) = renameOutcome f (perform scope c s) := by
  cases c with
  | reset => rfl
  | loadBegin => cases scope <;> rfl
  | imemWrite a w => exact congrArg Host.Outcome.next (imemWrite_rename a w s)
  | loadEnd => rfl
  | step => exact stepCommand_rename hf s
  | run => cases scope <;> rfl

theorem issue_rename (scope : CeilingScope) (c : Command) (s : State) :
    issue scope (renameCommand f c) (renameState f s) = renameOutcome f (issue scope c s) := by
  have hacc : accepts (renameState f s) (renameCommand f c) = accepts s c := by cases c <;> rfl
  have hperf := perform_rename hf scope c (s.setRunaway false)
  unfold issue
  rw [hacc, apply_ite (renameOutcome f), ← hperf]
  rfl

theorem proceed_rename (s : State) : proceed (renameState f s) = renameOutcome f (proceed s) := by
  unfold proceed
  rw [apply_ite (renameOutcome f), runTick_rename hf]
  rfl

omit hf in
theorem commandTaken_rename (s : State) :
    commandTaken (renameState f s) = (commandTaken s).map (renameCommand f) := by
  unfold commandTaken
  simp only [renameState]
  cases s.host with
  | nil => rfl
  | cons input rest =>
    cases input with
    | quiet => rfl
    | issue c => rfl
    | await c => exact (apply_ite (Option.map (renameCommand f)) (s.busy = true) none (some c)).symm

omit hf in
theorem setHost_hostAfter_rename (s : State) :
    (renameState f s).setHost (hostAfter (renameState f s)) = renameState f (s.setHost (hostAfter s)) := by
  have hhost : hostAfter (renameState f s) = (hostAfter s).map (renameInput f) := by
    unfold hostAfter
    simp only [renameState]
    cases s.host with
    | nil => rfl
    | cons input rest =>
      cases input with
      | quiet => rfl
      | issue c => rfl
      | await c => exact (apply_ite (List.map (renameInput f)) (s.busy = true) (.await c :: rest) rest).symm
  rw [hhost]
  rfl

theorem stepWith_rename (scope : CeilingScope) (s : State) :
    stepWith scope (renameState f s) = renameOutcome f (stepWith scope s) := by
  unfold stepWith
  rw [commandTaken_rename, setHost_hostAfter_rename]
  cases commandTaken s with
  | none => exact proceed_rename hf _
  | some c => exact issue_rename hf scope c _

end

/-- Settles O51: a step takes the renamed command or goes on with the RUN, and each commutes with the renaming. -/
theorem symbolIdsAreOnlyNames : Obligations.SymbolIdsAreOnlyNames := fun _ => stepWith_rename

end Sys2Proof.Claims
end

