-- ==== Sys2Proof/Proofs/LoaderText.lean ====
section
/-!
SUPPORT. What the loader reads of a line (30_encoding.md R67 to R72): its tokens, the opcode name, and an integer
operand by its digits.
-/
namespace Sys2Proof.Machine

open Sys2Proof.Claims

variable {W : Widths}

/-! Tokens (R67). -/

/-- Whether a text is free of white space. -/
def NoSeparator (t : Text) : Prop := ∀ c ∈ t, isSeparator c = false

theorem tokensFrom_append {t : Text} (h : NoSeparator t) (cur rest : Text) :
    tokensFrom cur (t ++ rest) = tokensFrom (t.reverse ++ cur) rest := by
  induction t generalizing cur with
  | nil => rfl
  | cons c t ih =>
    obtain ⟨hc, ht⟩ := List.forall_mem_cons.1 h
    rw [List.cons_append, tokensFrom, hc, List.reverse_cons, List.append_assoc]
    exact ih ht (c :: cur)

/-- A text free of white space is one token, or none if it is empty. -/
theorem tokens_of_noSeparator {t : Text} (h : NoSeparator t) : tokens t = if t = [] then [] else [t] := by
  have hread := tokensFrom_append h [] []
  rw [List.append_nil, List.append_nil] at hread
  rw [tokens, hread, tokensFrom, List.reverse_reverse]
  simp only [List.reverse_eq_nil_iff]

/-- A word and what stands after one space. -/
theorem tokens_append_space {t : Text} (h : NoSeparator t) (hne : t ≠ []) (rest : Text) :
    tokens (t ++ ' ' :: rest) = t :: tokens rest := by
  have hspace : isSeparator ' ' = true := rfl
  rw [tokens, tokensFrom_append h, List.append_nil, tokensFrom, if_pos hspace,
    if_neg (List.reverse_eq_nil_iff.not.2 hne), List.reverse_reverse]
  rfl

/-! Opcode names (R68). -/

theorem OpName.noSeparator_text (n : OpName) : NoSeparator n.text := by
  have hall : n.text.all (fun c => isSeparator c == false) = true := by cases n <;> rfl
  exact fun c hc => beq_iff_eq.1 (List.all_eq_true.1 hall c hc)

theorem OpName.text_ne_nil (n : OpName) : n.text ≠ [] := by cases n <;> exact List.cons_ne_nil _ _

theorem opNameOf_eq_none {t : Text} (h : ∀ n : OpName, n.text ≠ t) : opNameOf t = none :=
  List.find?_eq_none.2 fun n _ hn => h n (beq_iff_eq.1 hn)

theorem opNameOf_text (n : OpName) : opNameOf n.text = some n := by cases n <;> rfl

/-! Lines (R67, R69, R72, R73). -/

theorem assembleLine_of_blank {line : Text} (h : tokens line = []) (ids : Text → SymId W) :
    assembleLine ids line = .skipped := by rw [assembleLine, h]

theorem assembleLine_of_unknown {line name : Text} {rest : List Text} (h : tokens line = name :: rest)
    (hname : ∀ n : OpName, n.text ≠ name) (ids : Text → SymId W) : assembleLine ids line = .skipped := by
  rw [assembleLine, h]
  simp only [opNameOf_eq_none hname]

theorem assembleLine_of_name {line : Text} {n : OpName} {rest : List Text} (h : tokens line = n.text :: rest)
    (ids : Text → SymId W) : assembleLine ids line = instructionOf ids n rest.head? := by
  rw [assembleLine, h]
  simp only [opNameOf_text]

/-! Digits (R70). -/

theorem digitValue_digit (d : Fin 10) : digitValue (Char.ofNat (48 + d.val)) = some d.val := by
  revert d
  decide

/-- The only characters with a value are the decimal digits. -/
theorem eq_digit_of_digitValue {c : Char} {v : Nat} (h : digitValue c = some v) :
    ∃ d : Fin 10, c = Char.ofNat (48 + d.val) := by
  unfold digitValue at h
  split at h
  case isFalse => cases h
  case isTrue hrange =>
    have hlow : 48 ≤ c.toNat := hrange.1
    have hhigh : c.toNat ≤ 57 := hrange.2
    refine ⟨⟨c.toNat - 48, by omega⟩, ?_⟩
    rw [Nat.add_sub_cancel' hlow, Char.ofNat_toNat]

theorem digitsFrom_written (ds : List (Fin 10)) (acc : Nat) :
    digitsFrom acc (written ds) = some (ds.foldl (fun acc d => 10 * acc + d.val) acc) := by
  induction ds generalizing acc with
  | nil => rfl
  | cons d ds ih =>
    rw [written, List.map_cons, digitsFrom, digitValue_digit]
    exact ih _

theorem eq_written_of_digitsFrom {t : Text} {acc n : Nat} (h : digitsFrom acc t = some n) :
    ∃ ds : List (Fin 10), t = written ds := by
  induction t generalizing acc with
  | nil => exact ⟨[], rfl⟩
  | cons c t ih =>
    rw [digitsFrom] at h
    cases hc : digitValue c with
    | none => rw [hc] at h; cases h
    | some v =>
      rw [hc] at h
      obtain ⟨d, rfl⟩ := eq_digit_of_digitValue hc
      obtain ⟨ds, rfl⟩ := ih h
      exact ⟨d :: ds, rfl⟩

theorem written_eq_nil_iff {ds : List (Fin 10)} : written ds = [] ↔ ds = [] := List.map_eq_nil_iff

theorem parseNat_written {ds : List (Fin 10)} (h : ds ≠ []) : parseNat (written ds) = some (valueOf ds) := by
  rw [parseNat, if_neg (written_eq_nil_iff.not.2 h)]
  exact digitsFrom_written ds 0

theorem eq_written_of_parseNat {t : Text} {n : Nat} (h : parseNat t = some n) :
    ∃ ds : List (Fin 10), ds ≠ [] ∧ t = written ds := by
  unfold parseNat at h
  split at h
  case isTrue => cases h
  case isFalse hne =>
    obtain ⟨ds, rfl⟩ := eq_written_of_digitsFrom h
    exact ⟨ds, written_eq_nil_iff.not.1 hne, rfl⟩

/-! Integers (R70). -/

/-- A row of digits begins with no sign. -/
theorem digit_ne_sign (d : Fin 10) : Char.ofNat (48 + d.val) ≠ '-' ∧ Char.ofNat (48 + d.val) ≠ '+' := by
  revert d
  decide

theorem parseInt_written {ds : List (Fin 10)} (h : ds ≠ []) : parseInt (written ds) = some (valueOf ds : Int) := by
  have hunsigned : parseInt (written ds) = (parseNat (written ds)).map fun n => (n : Int) := by
    cases ds with
    | nil => exact absurd rfl h
    | cons d ds =>
      obtain ⟨hminus, hplus⟩ := digit_ne_sign d
      rw [written, List.map_cons, parseInt]
      · exact fun _ e => hminus (List.cons.inj e).1
      · exact fun _ e => hplus (List.cons.inj e).1
  rw [hunsigned, parseNat_written h]
  rfl

theorem parseInt_plus {ds : List (Fin 10)} (h : ds ≠ []) :
    parseInt ('+' :: written ds) = some (valueOf ds : Int) := by
  rw [parseInt, parseNat_written h]
  rfl

theorem parseInt_minus {ds : List (Fin 10)} (h : ds ≠ []) :
    parseInt ('-' :: written ds) = some (-(valueOf ds : Int)) := by
  rw [parseInt, parseNat_written h]
  rfl

theorem eq_written_of_parseNat_map {t : Text} {sign : Int → Int} {i : Int}
    (h : ((parseNat t).map fun n => sign n) = some i) : ∃ ds : List (Fin 10), ds ≠ [] ∧ t = written ds := by
  cases hn : parseNat t with
  | none => rw [hn] at h; cases h
  | some n => exact eq_written_of_parseNat hn

/-- An integer is an optional sign and digits. -/
theorem eq_signed_of_parseInt {t : Text} {i : Int} (h : parseInt t = some i) :
    ∃ ds : List (Fin 10), ds ≠ [] ∧ (t = written ds ∨ t = '+' :: written ds ∨ t = '-' :: written ds) := by
  unfold parseInt at h
  split at h <;> obtain ⟨ds, hne, rfl⟩ := eq_written_of_parseNat_map h
  · exact ⟨ds, hne, .inr (.inr rfl)⟩
  · exact ⟨ds, hne, .inr (.inl rfl)⟩
  · exact ⟨ds, hne, .inl rfl⟩

theorem withOperand_eq_elim (mk : Opnd W → Instr W) (o : Option Text) :
    withOperand mk o = (parseOperand o).elim .parseError fun x => .instruction (mk x) := by
  unfold withOperand
  cases parseOperand o <;> rfl

end Sys2Proof.Machine

namespace Sys2Proof.Claims

open Sys2Proof.Machine

/-- Settles O56: one law for each kind of line; the instructions without an operand ignore it by definition. -/
theorem linesAreReadByTheirFirstTwoTokens : Obligations.LinesAreReadByTheirFirstTwoTokens := fun ids _ =>
  ⟨fun h => assembleLine_of_blank h ids, fun _ _ h hname => assembleLine_of_unknown h hname ids,
    fun _ _ _ h => assembleLine_of_name h ids, fun _ h => assembleLine_of_name h ids,
    fun _ => ⟨rfl, rfl, rfl, rfl⟩, rfl, rfl, rfl⟩

/-- Settles O55: what a row of digits parses to, and that nothing else parses. -/
theorem integerOperandsHaveTheStatedForm : Obligations.IntegerOperandsHaveTheStatedForm := by
  refine ⟨fun ids o => ?_, rfl, fun ds h => ⟨parseInt_written h, parseInt_plus h, parseInt_minus h⟩,
    fun t h => ?_, fun t => ?_⟩
  · exact ⟨withOperand_eq_elim _ o, withOperand_eq_elim _ o, withOperand_eq_elim _ o, withOperand_eq_elim _ o⟩
  · obtain ⟨i, hi⟩ := Option.ne_none_iff_exists'.1 h
    exact eq_signed_of_parseInt hi
  · rw [parseOperand, Option.bind_some]
    cases parseInt t <;> rfl

end Sys2Proof.Claims
end

