-- ==== Sys2Proof/Proofs/Rendering.lean ====
section
/-!
SUPPORT. The rendering of an instruction (30_encoding.md R76) as the loader reads it: decimal digits stand for the
number they are made from, and a rendered line has the tokens it was made of.
-/
namespace Sys2Proof.Machine

open Sys2Proof.Claims

variable {W : Widths}

/-! Decimal digits. -/

theorem decimalDigits_of_lt_ten {n : Nat} (h : n < 10) (fuel : Nat) :
    decimalDigits (fuel + 1) n = written [⟨n, h⟩] := if_pos h

theorem valueOf_append_digit (ds : List (Fin 10)) (d : Fin 10) : valueOf (ds ++ [d]) = 10 * valueOf ds + d.val :=
  List.foldl_append

/-- With enough fuel, the digits of a number are at least one and stand for it. -/
theorem decimalDigits_eq_written {fuel n : Nat} (h : n < 10 ^ (fuel + 1)) :
    ∃ ds : List (Fin 10), ds ≠ [] ∧ decimalDigits (fuel + 1) n = written ds ∧ valueOf ds = n := by
  induction fuel generalizing n with
  | zero => exact ⟨[⟨n, h⟩], List.cons_ne_nil _ _, decimalDigits_of_lt_ten h 0, Nat.zero_add n⟩
  | succ fuel ih =>
    by_cases hn : n < 10
    · exact ⟨[⟨n, hn⟩], List.cons_ne_nil _ _, decimalDigits_of_lt_ten hn _, Nat.zero_add n⟩
    · obtain ⟨ds, -, hds, hval⟩ := ih (Nat.div_lt_of_lt_mul (h.trans_eq (Nat.pow_succ' ..)))
      refine ⟨ds ++ [⟨n % 10, Nat.mod_lt n (by decide)⟩],
        List.append_ne_nil_of_right_ne_nil _ (List.cons_ne_nil _ _), ?_, ?_⟩
      · rw [decimalDigits, if_neg hn, hds, written, written, List.map_append]
        rfl
      · rw [valueOf_append_digit, hval, Nat.div_add_mod]

/-- `n + 1` decimal digits are enough for a pattern of `n` bits. -/
theorem natAbs_toInt_lt {n : Nat} (x : BitVec n) : x.toInt.natAbs < 10 ^ (n + 1) := by
  have hlow := BitVec.le_two_mul_toInt (x := x)
  have hhigh := BitVec.two_mul_toInt_lt (x := x)
  have hbits : x.toInt.natAbs ≤ 2 ^ n := by
    zify
    exact abs_le.2 ⟨by omega, by omega⟩
  calc x.toInt.natAbs ≤ 2 ^ n := hbits
    _ ≤ 10 ^ n := Nat.pow_le_pow_left (by decide) n
    _ < 10 ^ (n + 1) := Nat.pow_lt_pow_succ (by decide)

theorem noSeparator_written (ds : List (Fin 10)) : NoSeparator (written ds) := by
  have hdigit : ∀ d : Fin 10, isSeparator (Char.ofNat (48 + d.val)) = false := by decide
  exact List.forall_mem_map.2 fun d _ => hdigit d

/-- What `decimal` writes is one token, an integer with the value of the pattern. -/
theorem decimal_spec {n : Nat} (x : BitVec n) :
    decimal x ≠ [] ∧ NoSeparator (decimal x) ∧ parseInt (decimal x) = some x.toInt := by
  obtain ⟨ds, hne, hds, hval⟩ := decimalDigits_eq_written (natAbs_toInt_lt x)
  rw [decimal, hds]
  split
  case isTrue hneg =>
    refine ⟨List.cons_ne_nil _ _, List.forall_mem_cons.2 ⟨rfl, noSeparator_written ds⟩, ?_⟩
    rw [parseInt_minus hne, hval]
    exact congrArg some (by omega)
  case isFalse hneg =>
    refine ⟨written_eq_nil_iff.not.2 hne, noSeparator_written ds, ?_⟩
    rw [parseInt_written hne, hval]
    exact congrArg some (by omega)

theorem parseOperand_decimal (x : Opnd W) : parseOperand (some (decimal x)) = some x := by
  obtain ⟨-, -, hparse⟩ := decimal_spec x
  have hrange : minInt W.opndW ≤ x.toInt ∧ x.toInt ≤ maxInt W.opndW :=
    ⟨BitVec.le_toInt x, Int.le_sub_one_of_lt BitVec.toInt_lt⟩
  rw [parseOperand, Option.bind_some, hparse]
  simp only [if_pos hrange, wrap_toInt_self]

/-! Rendered lines. -/

theorem assembleLine_name (n : OpName) (ids : Text → SymId W) :
    assembleLine ids n.text = instructionOf ids n none := by
  refine assembleLine_of_name (rest := []) ?_ ids
  rw [tokens_of_noSeparator n.noSeparator_text, if_neg n.text_ne_nil]

theorem assembleLine_name_space (n : OpName) (operand : Text) (ids : Text → SymId W) :
    assembleLine ids (n.text ++ ' ' :: operand) = instructionOf ids n (tokens operand).head? :=
  assembleLine_of_name (tokens_append_space n.noSeparator_text n.text_ne_nil operand) ids

/-- A label is read as it is written; the empty label is no token. -/
theorem head?_tokens_getD {t : Text} (h : NoSeparator t) : (tokens t).head?.getD [] = t := by
  rw [tokens_of_noSeparator h]
  split
  case isTrue hnil => exact hnil.symm
  case isFalse => rfl

/-- An integer operand is read back from its decimal rendering. -/
theorem withOperand_tokens_decimal (mk : Opnd W → Instr W) (x : Opnd W) :
    withOperand mk (tokens (decimal x)).head? = .instruction (mk x) := by
  obtain ⟨hne, hsep, -⟩ := decimal_spec x
  rw [tokens_of_noSeparator hsep, if_neg hne, withOperand, List.head?_cons, parseOperand_decimal]

theorem assembleLine_render {labels : SymId W → Text} {i : Instr W} {line : Text} (h : render labels i = some line)
    {ids : Text → SymId W}
    (hlabel : ∀ sym, symbolOf i = some sym → ids (labels sym) = sym ∧ NoSeparator (labels sym)) :
    assembleLine ids line = .instruction i := by
  cases i with
  | empty | reserved => cases h
  | xch | add | sub | hlt =>
    cases h
    exact (congrArg (assembleLine ids) (List.append_nil _)).trans (assembleLine_name _ ids)
  | dec sym | lda sym | str sym =>
    obtain ⟨hid, hsep⟩ := hlabel sym rfl
    cases h
    refine (assembleLine_name_space _ _ ids).trans ?_
    rw [instructionOf, head?_tokens_getD hsep, hid]
  | ldi x | jmp x | jzs x | jvs x =>
    cases h
    exact (assembleLine_name_space _ _ ids).trans (withOperand_tokens_decimal _ x)

end Sys2Proof.Machine

namespace Sys2Proof.Claims

open Sys2Proof.Machine

/-- Settles O54: `assembleLine_render` at the default widths. -/
theorem renderingRoundTrips : Obligations.RenderingRoundTrips := fun _ _ _ _ h hlabel =>
  assembleLine_render h hlabel

end Sys2Proof.Claims
end

