-- ==== Sys2Proof/Proofs/Loading.lean ====
section
/-!
SUPPORT. A program text and its load (30_encoding.md R60, R73, R74; 70_reset_and_hazards.md R123 to R125): the
numbering of labels by first appearance, the commands of a load, and what they leave in IMEM.
-/
namespace Sys2Proof.Machine

open Sys2Proof.Claims

/-! Labels by first appearance (R60). -/

theorem length_eraseDups_le {α : Type*} [BEq α] [LawfulBEq α] : ∀ l : List α, l.eraseDups.length ≤ l.length
  | [] => by simp
  | a :: l => by
    rw [List.eraseDups_cons, List.length_cons, List.length_cons]
    have hfilter := List.length_filter_le (fun b => !b == a) l
    exact Nat.succ_le_succ ((length_eraseDups_le _).trans hfilter)
  termination_by l => l.length
  decreasing_by exact Nat.lt_succ_of_le (List.length_filter_le _ _)

/-- No more labels than slots: a label stands on a line of its own. -/
theorem length_labelsOf_le (program : List Text) (sz : Sizes) : (labelsOf program sz).length ≤ sz.imemCap :=
  (length_eraseDups_le _).trans ((List.length_filterMap_le _ _).trans (List.length_take_le _ _))

theorem idByFirstAppearance_inj {program : List Text} {l l' : Text} (h : l ∈ labelsOf program)
    (hl' : l' ∈ labelsOf program)
    (heq : (idByFirstAppearance program l : SymId) = idByFirstAppearance program l') : l = l' := by
  have hlen : (labelsOf program).length ≤ 128 := length_labelsOf_le program Config.sizes
  have small : ∀ {x : Text}, x ∈ labelsOf program → (labelsOf program).idxOf x < 2 ^ 32 := fun hx =>
    ((List.idxOf_lt_length_of_mem hx).trans_le hlen).trans (by decide)
  have hidx := congrArg BitVec.toNat heq
  rw [idByFirstAppearance, idByFirstAppearance, BitVec.toNat_ofNat, BitVec.toNat_ofNat, Nat.mod_eq_of_lt (small h),
    Nat.mod_eq_of_lt (small hl')] at hidx
  exact (List.idxOf_inj h).1 hidx

/-! The word of each line (R73, R74). -/

section
variable (ids : Text → SymId)

/-- The word a line by itself gives its slot. -/
def lineWord (line : Text) : IWord :=
  match assembleLine ids line with
  | .instruction i => encode i
  | .skipped | .parseError => 0

theorem loadedWord_nil (k : Nat) : loadedWord ids [] k = 0 := rfl

theorem loadedWord_cons_zero (line : Text) (lines : List Text) :
    loadedWord ids (line :: lines) 0 = lineWord ids line := by
  unfold loadedWord lineWord
  cases h : assembleLine ids line <;> simp [h]

/-- Nothing of a line that is a ParseError, nor of a line after it (R74). -/
theorem loadedWord_of_parseError {line : Text} (h : assembleLine ids line = .parseError)
    (lines : List Text) (k : Nat) : loadedWord ids (line :: lines) k = 0 := by
  unfold loadedWord
  simp [h]

theorem loadedWord_cons_succ {line : Text} (h : assembleLine ids line ≠ .parseError) (lines : List Text) (k : Nat) :
    loadedWord ids (line :: lines) (k + 1) = loadedWord ids lines k := by
  unfold loadedWord
  simp [h.symm]

/-- `m'` is the memory `m`, its slots from `k` on filled with the words of the lines. -/
def FilledFrom (k : Nat) (lines : List Text) (m m' : Memory Config.widths.wordW) : Prop :=
  ∀ a, Memory.read m' a = if k ≤ a ∧ a < 128 then loadedWord ids lines (a - k) else Memory.read m a

section
variable {ids} {k : Nat} {line : Text} {lines : List Text} {m m₁ m' : Memory Config.widths.wordW}

theorem FilledFrom.read_of_empty (h : FilledFrom ids 0 lines [] m') (a : Nat) :
    Memory.read m' a = if a < 128 then loadedWord ids lines a else 0 := by
  have hread := h a
  simp only [Nat.zero_le, true_and, Nat.sub_zero] at hread
  exact hread

/-- Nothing more is written: the lines left give no word to a slot, and the slots left hold none. -/
theorem FilledFrom.stop (hblank : ∀ a, k ≤ a → Memory.read m a = 0)
    (hwords : ∀ j, k + j < 128 → loadedWord ids lines j = 0) : FilledFrom ids k lines m m := by
  intro a
  split
  case isTrue ha => rw [hblank a ha.1, hwords (a - k) (by omega)]
  case isFalse => rfl

/-- One line: its word is in slot `k`, and the lines after it fill the slots after. -/
theorem FilledFrom.cons (hk : k < 128) (hline : assembleLine ids line ≠ .parseError)
    (hread : ∀ a, Memory.read m₁ a = if a = k then lineWord ids line else Memory.read m a)
    (h : FilledFrom ids (k + 1) lines m₁ m') : FilledFrom ids k (line :: lines) m m' := by
  intro a
  rw [h a, hread a]
  rcases Nat.lt_trichotomy a k with hlt | rfl | hgt
  · rw [if_neg (by omega), if_neg (by omega), if_neg (by omega)]
  · rw [if_neg (by omega), if_pos rfl, if_pos ⟨Nat.le_refl a, hk⟩, Nat.sub_self, loadedWord_cons_zero]
  · have hword : loadedWord ids (line :: lines) (a - k) = loadedWord ids lines (a - (k + 1)) := by
      rw [show a - k = a - (k + 1) + 1 by omega, loadedWord_cons_succ ids hline]
    have hslot : k + 1 ≤ a ∧ a < 128 ↔ k ≤ a ∧ a < 128 := by omega
    simp only [hword, hslot, if_neg (show ¬ a = k by omega)]

end

end

/-! The commands of a load, one step each (R123 to R125). -/

theorem stepWith_issue {W : Widths} {s : State W} {c : Command W} {rest : List (HostInput W)} {sz : Sizes}
    (hhost : s.host = .issue c :: rest) (hacc : accepts s c = true) (scope : CeilingScope) :
    stepWith scope s sz = perform scope c ((s.setHost rest).setRunaway false) sz := by
  have htaken : commandTaken s = some c := by rw [commandTaken, hhost]
  have hafter : hostAfter s = rest := by rw [hostAfter, hhost]
  have hacc' : accepts (s.setHost rest) c = true := by cases c <;> exact hacc
  rw [stepWith, htaken, hafter]
  exact if_pos hacc'

theorem stepsWith_succ_of_next {W : Widths} {s t : State W} {sz : Sizes} {scope : CeilingScope}
    (h : stepWith scope s sz = .next t) (n : Nat) : stepsWith scope (n + 1) s sz = stepsWith scope n t sz := by
  rw [stepsWith, h]

theorem setRunaway_false_of_eq {W : Widths} {s : State W} (h : s.runaway = false) : s.setRunaway false = s := by
  rw [State.setRunaway, ← h]

/-- The write of a slot during a load. -/
theorem stepWith_imemWrite {s : State} {k : Nat} {w : IWord} {rest : List HostInput} (hk : k < 128)
    (hhost : s.host = .issue (.imemWrite k w) :: rest) (hbusy : s.busy = false) (hload : s.loading = true)
    (hrun : s.runaway = false) (scope : CeilingScope) :
    stepWith scope s = .next ((s.setImem (Memory.write s.imem k w)).setHost rest) := by
  have hacc : accepts s (.imemWrite k w) = true := by rw [accepts, hbusy, hload]; rfl
  have hrange : inInstrRange (k : Nat) = true := inInstrRange_iff.2 (by omega)
  rw [stepWith_issue hhost hacc, setRunaway_false_of_eq (s := s.setHost rest) hrun, perform, imemWrite, if_pos hrange]
  rfl

section
variable (ids : Text → SymId) {k : Nat} {line : Text} (lines : List Text)

theorem loadFrom_of_full (hk : ¬ k < 128) : (loadFrom ids k lines).1 = [] := by
  cases lines with
  | nil => rfl
  | cons line lines => rw [loadFrom, if_neg hk]

theorem loadFrom_of_parseError (hk : k < 128) (h : assembleLine ids line = .parseError) :
    (loadFrom ids k (line :: lines)).1 = [] := by rw [loadFrom, if_pos hk, h]

theorem loadFrom_of_skipped (hk : k < 128) (h : assembleLine ids line = .skipped) :
    loadFrom ids k (line :: lines) = loadFrom ids (k + 1) lines := by rw [loadFrom, if_pos hk, h]

theorem loadFrom_of_instruction {i : Instr} (hk : k < 128) (h : assembleLine ids line = .instruction i) :
    (loadFrom ids k (line :: lines)).1 = .imemWrite k (encode i) :: (loadFrom ids (k + 1) lines).1 := by
  rw [loadFrom, if_pos hk, h]

end

/-- A load is in progress, and the slots from `k` on are still empty. -/
structure LoadingFrom (k : Nat) (s : State) : Prop where
  busy : s.busy = false
  loading : s.loading = true
  runaway : s.runaway = false
  wf : Memory.wf s.imem
  blank : ∀ a, k ≤ a → Memory.read s.imem a = 0

/-- The steps of the writes of these lines fill their slots, and leave the host's inputs after them. -/
def StepsFill (scope : CeilingScope) (ids : Text → SymId) (k : Nat) (lines : List Text) (s : State)
    (rest : List HostInput) : Prop :=
  ∃ m', FilledFrom ids k lines s.imem m' ∧ ∀ n,
    stepsWith scope ((loadFrom ids k lines).1.length + n) s = stepsWith scope n ((s.setImem m').setHost rest)

section
variable {scope : CeilingScope} {ids : Text → SymId} {k : Nat} {line : Text} {lines : List Text} {s : State}
  {rest : List HostInput}

theorem StepsFill.stop (hs : LoadingFrom k s) (hhost : s.host = (loadFrom ids k lines).1.map .issue ++ rest)
    (hnone : (loadFrom ids k lines).1 = []) (hwords : ∀ j, k + j < 128 → loadedWord ids lines j = 0) :
    StepsFill scope ids k lines s rest := by
  rw [hnone] at hhost
  refine ⟨s.imem, .stop hs.blank hwords, fun n => ?_⟩
  rw [hnone, List.length_nil, Nat.zero_add, ← (show s.host = rest from hhost)]
  rfl

theorem StepsFill.skip (hs : LoadingFrom k s) (hk : k < 128) (hline : assembleLine ids line = .skipped)
    (h : StepsFill scope ids (k + 1) lines s rest) : StepsFill scope ids k (line :: lines) s rest := by
  obtain ⟨m', hm', hsteps⟩ := h
  rw [StepsFill, loadFrom_of_skipped ids lines hk hline]
  refine ⟨m', .cons hk (by rw [hline]; nofun) (fun a => ?_) hm', hsteps⟩
  split
  case isTrue ha => rw [lineWord, hline, hs.blank a ha.ge]
  case isFalse => rfl

theorem StepsFill.write {i : Instr} (hs : LoadingFrom k s) (hk : k < 128)
    (hline : assembleLine ids line = .instruction i)
    (hhost : s.host = .issue (.imemWrite k (encode i)) :: ((loadFrom ids (k + 1) lines).1.map .issue ++ rest))
    (h : StepsFill scope ids (k + 1) lines ((s.setImem (Memory.write s.imem k (encode i))).setHost
      ((loadFrom ids (k + 1) lines).1.map .issue ++ rest)) rest) :
    StepsFill scope ids k (line :: lines) s rest := by
  obtain ⟨m', hm', hsteps⟩ := h
  have hstep := stepWith_imemWrite hk hhost hs.busy hs.loading hs.runaway scope
  rw [StepsFill, loadFrom_of_instruction ids lines hk hline]
  refine ⟨m', .cons hk (by rw [hline]; nofun) (fun a => ?_) hm', fun n => ?_⟩
  · rw [lineWord, hline]
    exact Memory.read_write hs.wf k (encode i) a
  · rw [List.length_cons, Nat.add_right_comm, stepsWith_succ_of_next hstep]
    exact hsteps n

theorem LoadingFrom.succ (hs : LoadingFrom k s) : LoadingFrom (k + 1) s :=
  { hs with blank := fun a ha => hs.blank a (Nat.le_of_succ_le ha) }

theorem LoadingFrom.write (hs : LoadingFrom k s) (w : IWord) (rest : List HostInput) :
    LoadingFrom (k + 1) ((s.setImem (Memory.write s.imem k w)).setHost rest) where
  busy := hs.busy
  loading := hs.loading
  runaway := hs.runaway
  wf := Memory.wf_write hs.wf k w
  blank a ha := by
    have hread := Memory.read_write hs.wf k w a
    rw [if_neg (Nat.ne_of_gt ha), hs.blank a (Nat.le_of_succ_le ha)] at hread
    exact hread

/-- The load of the lines from slot `k` on, up to its LOAD_END. -/
theorem stepsFill_of_loadingFrom (hs : LoadingFrom k s)
    (hhost : s.host = (loadFrom ids k lines).1.map .issue ++ rest) : StepsFill scope ids k lines s rest := by
  induction lines generalizing k s with
  | nil => exact .stop hs hhost rfl fun j _ => loadedWord_nil ids j
  | cons line lines ih =>
    by_cases hk : k < 128
    · cases hline : assembleLine ids line with
      | instruction i =>
        rw [loadFrom_of_instruction ids lines hk hline] at hhost
        exact .write hs hk hline hhost (ih (hs.write _ _) rfl)
      | skipped =>
        rw [loadFrom_of_skipped ids lines hk hline] at hhost
        exact .skip hs hk hline (ih hs.succ hhost)
      | parseError =>
        exact .stop hs hhost (loadFrom_of_parseError ids lines hk hline) fun j _ =>
          loadedWord_of_parseError ids hline lines j
    · exact .stop hs hhost (loadFrom_of_full ids _ hk) fun j hj =>
        absurd (Nat.lt_of_le_of_lt (Nat.le_add_right k j) hj) hk

end

/-! LOAD_BEGIN (R105, R123). -/

section
variable {W : Widths} (scope : CeilingScope) (s : State W)

theorem freshButImem_loadBegin : FreshButImem (loadBegin scope s) := by
  cases scope <;> exact ⟨rfl, rfl, rfl, rfl, rfl, rfl, rfl, rfl, rfl⟩

@[simp] theorem loadBegin_imem : (loadBegin scope s).imem = [] := by cases scope <;> rfl
@[simp] theorem loadBegin_busy : (loadBegin scope s).busy = false := by cases scope <;> rfl
@[simp] theorem loadBegin_loading : (loadBegin scope s).loading = true := by cases scope <;> rfl

theorem loadBegin_execCount : (loadBegin scope s).execCount = if scope = .load then 0 else s.execCount := by
  cases scope <;> rfl

end

/-- The start of a load. -/
theorem stepWith_loadBegin {W : Widths} {s : State W} {rest : List (HostInput W)}
    (hhost : s.host = .issue .loadBegin :: rest) (hbusy : s.busy = false) (hload : s.loading = false)
    (scope : CeilingScope) {sz : Sizes} : stepWith scope s sz = .next ((loadBegin scope s).setHost rest) := by
  have hacc : accepts s .loadBegin = true := by rw [accepts, hbusy, hload]; rfl
  rw [stepWith_issue hhost hacc]
  cases scope <;> rfl

theorem loadingFrom_loadBegin (scope : CeilingScope) (s : State) (rest : List HostInput) :
    LoadingFrom 0 ((loadBegin scope s).setHost rest) where
  busy := loadBegin_busy scope s
  loading := loadBegin_loading scope s
  runaway := (freshButImem_loadBegin scope s).runaway
  wf := by rw [State.setHost_imem, loadBegin_imem]; exact Memory.wf_nil
  blank a _ := by rw [State.setHost_imem, loadBegin_imem]; rfl

theorem FreshButImem.setLoading {W : Widths} {s : State W} (h : FreshButImem s) (x : Bool) :
    FreshButImem (s.setLoading x) := { h with }

/-- The end of a load. -/
theorem stepWith_loadEnd {W : Widths} {s : State W} {status : LoadStatus} {rest : List (HostInput W)}
    (hhost : s.host = .issue (.loadEnd status) :: rest) (hbusy : s.busy = false) (hload : s.loading = true)
    (hrun : s.runaway = false) (scope : CeilingScope) {sz : Sizes} :
    stepWith scope s sz = .next ((s.setHost rest).setLoading false) := by
  have hacc : accepts s (.loadEnd status) = true := by rw [accepts, hbusy, hload]; rfl
  rw [stepWith_issue hhost hacc, setRunaway_false_of_eq (s := s.setHost rest) hrun]
  rfl

/-- What a whole load leaves of an idle block: the fresh machine, with its slots filled. -/
theorem stepsWith_loadCommands (scope : CeilingScope) (ids : Text → SymId) (program : List Text) {s : State}
    (hbusy : s.busy = false) (hload : s.loading = false)
    (hhost : s.host = (loadCommands ids program).map .issue) :
    ∃ m', FilledFrom ids 0 program [] m' ∧
      stepsWith scope s.host.length s = .next ((((loadBegin scope s).setImem m').setHost []).setLoading false) := by
  obtain ⟨status, hlist⟩ : ∃ status, s.host =
      .issue .loadBegin :: ((loadFrom ids 0 program).1.map .issue ++ [.issue (.loadEnd status)]) :=
    ⟨(loadFrom ids 0 program).2, by rw [hhost, loadCommands, List.map_cons, List.map_append, List.map_singleton]⟩
  have hbegin := stepWith_loadBegin (sz := Config.sizes) hlist hbusy hload scope
  obtain ⟨m', hm', hsteps⟩ := stepsFill_of_loadingFrom (scope := scope) (loadingFrom_loadBegin scope s _)
    (State.setHost_host _ _)
  have hend := stepWith_loadEnd (sz := Config.sizes)
    (s := ((loadBegin scope s).setImem m').setHost [.issue (.loadEnd status)]) rfl
    (loadBegin_busy scope s) (loadBegin_loading scope s) (freshButImem_loadBegin scope s).runaway scope
  refine ⟨m', by rwa [State.setHost_imem, loadBegin_imem] at hm', ?_⟩
  rw [hlist, List.length_cons, stepsWith_succ_of_next hbegin, List.length_append, List.length_map]
  exact (hsteps 1).trans (stepsWith_succ_of_next hend 0)

end Sys2Proof.Machine

namespace Sys2Proof.Claims

open Sys2Proof.Machine

/-- Settles O58: places in a list shorter than the number of ids are told apart by their ids. -/
theorem distinctLabelsGetDistinctIds : Obligations.DistinctLabelsGetDistinctIds := fun _ _ _ =>
  idByFirstAppearance_inj

/-- Settles O57: the state a load leaves is the one of `stepsWith_loadCommands`. -/
theorem loadingAProgramFillsItsSlots : Obligations.LoadingAProgramFillsItsSlots := by
  intro scope ids program s hbusy hload hhost
  obtain ⟨m', hm', hsteps⟩ := stepsWith_loadCommands scope ids program hbusy hload hhost
  exact ⟨_, hsteps, (((freshButImem_loadBegin scope s).setImem m').setHost []).setLoading false, rfl,
    loadBegin_busy scope s, rfl, loadBegin_execCount scope s, hm'.read_of_empty⟩

end Sys2Proof.Claims
end

