-- ==== Sys2Proof/Proofs/DataTransfer.lean ====
section
/-!
SUPPORT. DEC, LDI, LDA, STR and XCH (40_data_transfer.md) at the default sizes: the stores and the load in terms of
the address Resolve gives.
-/
namespace Sys2Proof.Machine

open Sys2Proof.Claims

/-- Resolve gives no address below DMEM_BASE, so its address is a data address as soon as it is at most DMEM_TOP. -/
theorem inDataRange_resolve_iff (sym : SymId) (s : State) :
    inDataRange (resolve sym s).1 = true ↔ (resolve sym s).1 ≤ 255 :=
  inDataRange_iff.trans (and_iff_right (resolve_base_le sym s))

/-- A symbol resolved in any state with the SYMTAB its first Resolve left has the same address (20_memory.md R46). -/
theorem resolve_address_of_symtab_eq {sym : SymId} {s t : State} (h : t.symtab = (resolve sym s).2.symtab) :
    (resolve sym t).1 = (resolve sym s).1 := by
  rw [(resolve_congr sym h).1, resolve_resolve]

/-! The stores of DEC and STR (20_memory.md R48). -/

/-- What a store at the address of a symbol does to every word of data memory. -/
theorem read_storeWord_resolve {s : State} (hm : Memory.wf s.dmem) (sym : SymId) (x : Word) (a : Nat) :
    Memory.read (storeWord (resolve sym s).1 x s.dmem Config.sizes) a =
      if a = (resolve sym s).1 ∧ a ≤ 255 then x else Memory.read s.dmem a := by
  have haddr : (a = (resolve sym s).1 ∧ inDataRange (resolve sym s).1 = true) ↔
      (a = (resolve sym s).1 ∧ a ≤ 255) :=
    and_congr_right fun ha => by rw [inDataRange_resolve_iff, ha]
  rw [read_storeWord hm]
  exact if_congr haddr rfl rfl

/-- The next state of an instruction that stores `x` into the variable `sym`. -/
theorem exec_store {i : Instr} {s : State} {sym : SymId} {x : Word} (hm : Memory.wf s.dmem)
    (hi : stateAfter i s = advancePc { s with
      symtab := allocate sym s.symtab
      dmem := storeWord (addressOf sym s.symtab) x s.dmem Config.sizes }) :
    ∃ t : State, exec i s = .next t ∧
      (∀ a : Nat, Memory.read t.dmem a =
        if a = (resolve sym s).1 ∧ a ≤ 255 then x else Memory.read s.dmem a) ∧
      t = { s with symtab := (resolve sym s).2.symtab, dmem := t.dmem, pc := plusOne s.pc } := by
  have hread := read_storeWord_resolve hm sym x
  rw [resolve_eq] at hread ⊢
  rw [exec_eq_next, hi]
  exact ⟨_, rfl, hread, rfl⟩

/-! The load of LDA (20_memory.md R48). -/

/-- The next state of LDA. -/
theorem exec_lda (sym : SymId) (s : State) :
    exec (.lda sym) s = .next { s with
      symtab := (resolve sym s).2.symtab
      acc := if (resolve sym s).1 ≤ 255 then Memory.read s.dmem (resolve sym s).1 else s.acc
      pc := plusOne s.pc } := by
  simp only [← inDataRange_resolve_iff]
  exact execLda_eq sym s

end Sys2Proof.Machine

namespace Sys2Proof.Claims

open Sys2Proof.Machine

/-- Settles O19: DEC is a store of 0. -/
theorem decClearsItsVariable : Obligations.DecClearsItsVariable := fun sym _ hm =>
  ⟨decode_wordOf 1 sym (decode_mkWord 1 sym), exec_store hm rfl⟩

/-- Settles O20: the law of LDA, `exec_lda`. -/
theorem ldaLoadsItsVariable : Obligations.LdaLoadsItsVariable := fun sym s =>
  ⟨decode_wordOf 3 sym (decode_mkWord 3 sym), exec_lda sym s⟩

/-- Settles O21: STR is a store of ACC. -/
theorem strStoresAcc : Obligations.StrStoresAcc := fun sym _ hm =>
  ⟨decode_wordOf 4 sym (decode_mkWord 4 sym), exec_store hm rfl⟩

/-- Settles O22: the address allocated is the first one past the table, and the invariant says that the word there
still holds 0. -/
theorem firstUseByLdaLoadsZero : Obligations.FirstUseByLdaLoadsZero := by
  intro sym s h hnew hfree
  have htop : 128 + s.symtab.length ≤ 255 := by omega
  have hzero : Memory.read s.dmem (128 + s.symtab.length) = 0 := h.read_dmem_of_unallocated (le_refl _)
  rw [exec_lda, resolve_of_not_mem hnew, if_pos htop, hzero, State.setSymtab_symtab]

/-- Settles O23: the load resolves the symbol in the table the store left, which gives the address of the store. -/
theorem storeThenLoadReturnsValue : Obligations.StoreThenLoadReturnsValue := by
  intro sym s acc dr pc z v hm htop
  obtain ⟨t, hstr, hread, hframe⟩ := (strStoresAcc sym s hm).2
  have htab : t.symtab = (resolve sym s).2.symtab := by rw [hframe]
  have haddr : (resolve sym { t with acc := acc, dr := dr, z := z, v := v, pc := pc }).1 = (resolve sym s).1 :=
    resolve_address_of_symtab_eq htab
  refine ⟨t, _, hstr, exec_lda sym _, ?_⟩
  rw [haddr, if_pos htop]
  exact (hread _).trans (if_pos ⟨rfl, htop⟩)

/-- Settles O6: the law of LDI, `execLdi_eq`. -/
theorem ldiLoadsItsLiteral : Obligations.LdiLoadsItsLiteral := fun n s =>
  ⟨decode_wordOf 2 n (decode_mkWord 2 n), execLdi_eq n s⟩

/-- Settles O7: the next state of XCH, taken of `s` and of the state it leaves. -/
theorem xchExchangesAccAndDr : Obligations.XchExchangesAccAndDr := fun opnd s =>
  ⟨decode_wordOf 5 opnd (decode_mkWord 5 opnd), exec_eq_next .xch s, exec_eq_next .xch _⟩

end Sys2Proof.Claims
end

