-- ==== Sys2Proof/Proofs/Arithmetic.lean ====
section
/-!
SUPPORT. ADD and SUB (41_arithmetic.md): the law of a stored exact result, and what it says of the sum and of the
difference of two registers.
-/
namespace Sys2Proof.Machine

open Sys2Proof.Claims

variable {W : Widths}

/-! The law for any exact result (R83). -/

/-- The next state of an instruction that stores the exact result `r`. -/
theorem exec_setResult {i : Instr} {s : State} {r : Int} (hi : stateAfter i s = advancePc (setResult r s)) :
    ∃ t : State, exec i s = .next t ∧
      t.acc.toNat = (r % 2 ^ 32).toNat ∧
      (t.v = true ↔ r < -2147483648 ∨ r > 2147483647) ∧
      (t.z = true ↔ t.acc = 0) ∧
      t = { s with acc := t.acc, v := t.v, z := t.z, pc := plusOne s.pc } := by
  rw [exec_eq_next, hi]
  exact ⟨_, rfl, wrap_toNat r, overflows_iff, decide_eq_true_iff, rfl⟩

/-- The stored value as a number: the one in the range of a register that differs from `r` by a multiple
of 2^32. -/
theorem wrap_toInt_eq_of_dvd {r x : Int} (hmin : -2147483648 ≤ x) (hmax : x ≤ 2147483647)
    (hdvd : 4294967296 ∣ x - r) : (wrap r : Word).toInt = x := by
  rw [wrap_toInt, Int.bmod_eq_iff (by decide)]
  exact ⟨hmin, Int.lt_add_one_of_le hmax, hdvd⟩

theorem wrap_toInt_of_not_overflows {r : Int} (h : overflows r 32 = false) : (wrap r : Word).toInt = r := by
  have hrange : ¬ (r < -2147483648 ∨ r > 2147483647) := by simp [← overflows_iff, h]
  exact wrap_toInt_eq_of_dvd (by omega) (by omega) (by omega)

theorem wrap_eq_zero_iff {r : Int} : (wrap r : Word) = 0 ↔ 4294967296 ∣ r := by
  rw [← BitVec.toInt_inj, wrap_toInt]
  exact Int.dvd_iff_bmod_eq_zero.symm

/-! The exact sum (R84, R86): the pattern stored is the sum of the patterns, and V is the overflow of that sum. -/

theorem wrap_exactSum (s : State W) : wrap (exactSum s) = s.acc + s.dr := by
  rw [wrap, exactSum, BitVec.ofInt_add, BitVec.ofInt_toInt, BitVec.ofInt_toInt]

theorem overflows_exactSum (s : State W) : overflows (exactSum s) W.xlen = s.acc.saddOverflow s.dr := by
  rw [Bool.eq_iff_iff, overflows_iff_at, exactSum]
  simp [BitVec.saddOverflow, or_comm]

theorem overflows_exactSum_iff_msb (s : State W) : overflows (exactSum s) W.xlen = true ↔
    s.acc.msb = s.dr.msb ∧ (wrap (exactSum s) : Word W).msb ≠ s.acc.msb := by
  rw [overflows_exactSum, BitVec.saddOverflow_eq, wrap_exactSum]
  simp

/-- The bounds of a sum of two registers leave one multiple of 2^32 outside the range of a register: twice the
lowest value. -/
theorem wrap_exactSum_eq_zero_and_overflows_iff (s : State) :
    (wrap (exactSum s) : Word) = 0 ∧ overflows (exactSum s) 32 = true ↔ s.acc = 0x80000000 ∧ s.dr = 0x80000000 := by
  have hacc := Word.toInt_bounds s.acc
  have hdr := Word.toInt_bounds s.dr
  have hmin : (0x80000000 : Word).toInt = -2147483648 := by decide
  rw [wrap_eq_zero_iff, overflows_iff, ← BitVec.toInt_inj, ← BitVec.toInt_inj, hmin, exactSum]
  omega

/-! The exact difference (R84, R87). -/

theorem wrap_exactDiff (s : State W) : wrap (exactDiff s) = s.acc - s.dr :=
  BitVec.eq_of_toInt_eq (by rw [wrap, BitVec.toInt_ofInt, BitVec.toInt_sub, exactDiff])

theorem overflows_exactDiff (s : State W) : overflows (exactDiff s) W.xlen = s.acc.ssubOverflow s.dr := by
  rw [Bool.eq_iff_iff, overflows_iff_at, exactDiff]
  simp [BitVec.ssubOverflow, or_comm]

theorem overflows_exactDiff_iff_msb (s : State W) : overflows (exactDiff s) W.xlen = true ↔
    s.acc.msb ≠ s.dr.msb ∧ (wrap (exactDiff s) : Word W).msb ≠ s.acc.msb := by
  rw [overflows_exactDiff, BitVec.ssubOverflow_eq, wrap_exactDiff]
  cases s.acc.msb <;> cases s.dr.msb <;> simp

theorem wrap_exactDiff_eq_zero_iff (s : State W) : (wrap (exactDiff s) : Word W) = 0 ↔ s.acc = s.dr := by
  rw [wrap_exactDiff, sub_eq_zero]

/-- Equal registers have the exact difference 0, which is in range. -/
theorem overflows_exactDiff_of_eq {s : State} (h : s.acc = s.dr) : overflows (exactDiff s) 32 = false := by
  rw [exactDiff, h, Int.sub_self]
  rfl

end Sys2Proof.Machine

namespace Sys2Proof.Claims

open Sys2Proof.Machine

/-- Settles O8: ADD stores the exact sum. -/
theorem addStoresLowBitsAndSetsFlags : Obligations.AddStoresLowBitsAndSetsFlags := fun opnd _ =>
  ⟨decode_wordOf 6 opnd (decode_mkWord 6 opnd), exec_setResult rfl⟩

/-- Settles O9: SUB stores the exact difference. -/
theorem subStoresLowBitsAndSetsFlags : Obligations.SubStoresLowBitsAndSetsFlags := fun opnd _ =>
  ⟨decode_wordOf 7 opnd (decode_mkWord 7 opnd), exec_setResult rfl⟩

/-- Settles O10: a sum out of range comes back into it by one 2^32, and both flags together mean that it is twice
the lowest value. -/
theorem addOverflowShowsInSignBits : Obligations.AddOverflowShowsInSignBits := by
  intro s
  have hacc := Word.toInt_bounds s.acc
  have hdr := Word.toInt_bounds s.dr
  refine ⟨_, exec_eq_next .add s, overflows_exactSum_iff_msb s, wrap_toInt_of_not_overflows, fun habove => ?above,
    fun hbelow => ?below, ?both⟩
  case above => exact wrap_toInt_eq_of_dvd (by omega) (by omega) (by rw [exactSum]; omega)
  case below => exact wrap_toInt_eq_of_dvd (by omega) (by omega) (by rw [exactSum]; omega)
  case both => exact (and_congr_left' decide_eq_true_iff).trans (wrap_exactSum_eq_zero_and_overflows_iff s)

/-- Settles O11: Z is equality of the registers, and the difference of equal registers does not overflow. -/
theorem subOverflowShowsInSignBits : Obligations.SubOverflowShowsInSignBits := by
  intro s
  have hz : (stateAfter .sub s).z = true ↔ s.acc = s.dr := decide_eq_true_iff.trans (wrap_exactDiff_eq_zero_iff s)
  refine ⟨_, exec_eq_next .sub s, overflows_exactDiff_iff_msb s, wrap_toInt_of_not_overflows, hz, ?_⟩
  rintro ⟨hzero, hv⟩
  exact Bool.false_ne_true ((overflows_exactDiff_of_eq (hz.1 hzero)).symm.trans hv)

end Sys2Proof.Claims
end

