-- ==== Sys2Proof/Proofs/ControlTransfer.lean ====
section
/-!
SUPPORT. JMP, JZS, JVS, HLT, the empty slot and the reserved opcodes (42_control_transfer.md) at the default widths:
the next state of a cycle that only advances, and of a jump taken and not taken.
-/
namespace Sys2Proof.Machine

open Sys2Proof.Claims

/-- A cycle with no effect but the advance (43_sequencer.md R98): the empty slot and the reserved opcodes (R93). -/
theorem retire_advancing (s : State) : retire s true = .next { s with pc := plusOne s.pc } := retire_eq s true

/-- A jump taken (42_control_transfer.md R88). -/
theorem jumpIf_taken (addr : Opnd) (s : State) : jumpIf true addr s = .next { s with pc := addr } :=
  jumpIf_eq true addr s

/-- A jump not taken falls through (42_control_transfer.md R90, R91). -/
theorem jumpIf_not_taken (addr : Opnd) (s : State) : jumpIf false addr s = .next { s with pc := plusOne s.pc } :=
  jumpIf_eq false addr s

end Sys2Proof.Machine

namespace Sys2Proof.Claims

open Sys2Proof.Machine

/-- Settles O12: JMP is the jump that is always taken. -/
theorem jmpSetsPc : Obligations.JmpSetsPc := fun addr s =>
  ⟨decode_wordOf 8 addr (decode_mkWord 8 addr), jumpIf_taken addr s⟩

/-- Settles O13: JZS is the jump taken on Z. -/
theorem jzsJumpsExactlyWhenZ : Obligations.JzsJumpsExactlyWhenZ := fun addr s =>
  ⟨decode_wordOf 9 addr (decode_mkWord 9 addr), jumpIf_taken addr { s with z := true },
    jumpIf_not_taken addr { s with z := false }⟩

/-- Settles O14: JVS is the jump taken on V. -/
theorem jvsJumpsExactlyWhenV : Obligations.JvsJumpsExactlyWhenV := fun addr s =>
  ⟨decode_wordOf 10 addr (decode_mkWord 10 addr), jumpIf_taken addr { s with v := true },
    jumpIf_not_taken addr { s with v := false }⟩

/-- Settles O15: the next state of HLT, `stateAfter`, does not advance. -/
theorem hltHaltsAndKeepsPc : Obligations.HltHaltsAndKeepsPc := fun opnd s =>
  ⟨decode_wordOf 11 opnd (decode_mkWord 11 opnd), exec_eq_next .hlt s⟩

/-- Settles O16: the empty slot and every reserved instruction only retire. -/
theorem emptyAndReservedOnlyAdvancePc : Obligations.EmptyAndReservedOnlyAdvancePc := fun opnd s =>
  ⟨decode_wordOf 0 opnd (decode_mkWord 0 opnd), retire_advancing s, fun op =>
    ⟨fun hop => decode_wordOf op opnd (decode_mkWord_reserved opnd hop), retire_advancing s⟩⟩

end Sys2Proof.Claims
end

