-- ==== Sys2Proof/Proofs/OneStep.lean ====
section
/-!
SUPPORT. One step of the model, an equation for each case: the fetch (43_sequencer.md R97), one pass of a RUN's loop
(R101 to R104), a command taken or refused (R95, R100) and a step with no command at hand.
-/
namespace Sys2Proof.Machine

open Sys2Proof.Claims

variable {W : Widths}

/-! The fetch (R97). -/

theorem inFetchRange_iff_inSlots {pc : Target} : inFetchRange pc = true ↔ InSlots pc := inFetchRange_iff

theorem inFetchRange_eq_false_iff {pc : Target} : inFetchRange pc = false ↔ ¬ InSlots pc := by
  rw [← inFetchRange_iff_inSlots, Bool.not_eq_true]

section
variable {s : State W} {sz : Sizes}

theorem fetch_of_inFetchRange (h : inFetchRange s.pc sz = true) :
    fetch s sz = Memory.read s.imem s.pc.toInt.toNat := if_pos h

theorem fetch_of_not_inFetchRange (h : inFetchRange s.pc sz = false) : fetch s sz = 0 :=
  if_neg (Bool.not_eq_true _ ▸ h)

end

/-- The empty word, fetched outside the slots, only advances PC. -/
theorem stateAfter_fetch_of_not_inSlots {s : State} (h : ¬ InSlots s.pc) (u : State) :
    stateAfter (decode (fetch s)) u = { u with pc := plusOne u.pc } := by
  rw [fetch_of_not_inFetchRange (inFetchRange_eq_false_iff.2 h), decode_zero]
  rfl

/-! What no instruction reads (10_state.md R16, R26, R27): a cycle is the same whatever these hold. -/

theorem stateAfter_setHost (i : Instr W) (s : State W) (sz : Sizes) (x : List (HostInput W)) :
    stateAfter i (s.setHost x) sz = (stateAfter i s sz).setHost x := by cases i <;> rfl

theorem stateAfter_setExecCount (i : Instr W) (s : State W) (sz : Sizes) (n : BitVec 32) :
    stateAfter i (s.setExecCount n) sz = (stateAfter i s sz).setExecCount n := by cases i <;> rfl

theorem SameProgramState.stateAfter {s t : State W} (h : SameProgramState s t) (i : Instr W) (sz : Sizes) :
    SameProgramState (stateAfter i s sz) (stateAfter i t sz) := by
  obtain ⟨acc, dr, z, v, pc, halted, imem, dmem, symtab⟩ := h
  have ht : t = { s with
      execCount := t.execCount, busy := t.busy, loading := t.loading, runaway := t.runaway, host := t.host } := by
    rw [← acc, ← dr, ← z, ← v, ← pc, ← halted, ← imem, ← dmem, ← symtab]
  rw [ht]
  cases i <;> exact ⟨rfl, rfl, rfl, rfl, rfl, rfl, rfl, rfl, rfl⟩

/-! One pass of a RUN's loop (R101). -/

section
variable {s t : State W} {sz : Sizes}

theorem runTick_of_halted (h : s.halted = true) : runTick s sz = .next (s.setBusy false) := by
  rw [runTick, runStop_eq_halted_iff_at.2 h]

theorem runTick_of_fetchBound (h : inFetchRange s.pc sz = false) : runTick s sz = .next (s.setBusy false) := by
  cases hh : s.halted with
  | true => exact runTick_of_halted hh
  | false => rw [runTick, runStop_eq_fetchBound_iff_at.2 ⟨hh, h⟩]

theorem runTick_of_runaway (h : runStop s sz = some .runaway) :
    runTick s sz = .next (((s.setHalted true).setRunaway true).setBusy false) := by
  rw [runTick, h]

theorem runTick_of_cycle (h : runStop s sz = none) :
    runTick s sz = .next ((stateAfter (decode (fetch s sz)) s sz).setExecCount (s.execCount + 1)) := by
  simp only [runTick, h, cycle_eq_next, countCycle, stateAfter_execCount]

/-- What a pass leaves, by the stop test that ends the RUN, if one does. -/
theorem runTick_inversion (h : runTick s sz = .next t) :
    ((runStop s sz = some .halted ∨ runStop s sz = some .fetchBound) ∧ t = s.setBusy false) ∨
    (runStop s sz = some .runaway ∧ t = ((s.setHalted true).setRunaway true).setBusy false) ∨
    (runStop s sz = none ∧ t = (stateAfter (decode (fetch s sz)) s sz).setExecCount (s.execCount + 1)) := by
  rcases runTick_cases s (sz := sz) with ⟨hs, he⟩ | ⟨hs, he⟩ | ⟨hs, he⟩ | ⟨hs, he⟩
  · exact .inl ⟨.inl hs, by cases he.symm.trans h; rfl⟩
  · exact .inl ⟨.inr hs, by cases he.symm.trans h; rfl⟩
  · exact .inr (.inl ⟨hs, by cases he.symm.trans h; rfl⟩)
  · exact .inr (.inr ⟨hs, by cases (runTick_of_cycle hs).symm.trans h; rfl⟩)

theorem runTick_next (s : State W) (sz : Sizes) : ∃ t, runTick s sz = .next t := by
  rcases runTick_next_cases s sz with h | h | ⟨-, h⟩ <;> exact ⟨_, h⟩

/-- A pass does not read the host's inputs. -/
theorem runTick_setHost (h : runTick s sz = .next t) (x : List (HostInput W)) :
    runTick (s.setHost x) sz = .next (t.setHost x) := by
  have hstop : runStop (s.setHost x) sz = runStop s sz := rfl
  rcases runTick_inversion h with ⟨hs | hs, rfl⟩ | ⟨hs, rfl⟩ | ⟨hs, rfl⟩
  · rw [runTick, hstop, hs]; rfl
  · rw [runTick, hstop, hs]; rfl
  · rw [runTick_of_runaway (hstop.trans hs)]; rfl
  · rw [runTick_of_cycle (hstop.trans hs), stateAfter_setHost]; rfl

end

/-! STEP (R100). -/

section
variable {s t : State W} {sz : Sizes}

theorem stepCommand_of_halted (h : s.halted = true) (sz : Sizes) : stepCommand s sz = .next s := if_pos h

theorem stepCommand_of_running (h : s.halted = false) (sz : Sizes) :
    stepCommand s sz = .next (stateAfter (decode (fetch s sz)) s sz) := by
  rw [stepCommand, h]
  exact cycle_eq_next s sz

theorem stepCommand_next (s : State W) (sz : Sizes) : ∃ t, stepCommand s sz = .next t := by
  rcases stepCommand_next_cases s sz with h | h <;> exact ⟨_, h⟩

theorem stepCommand_busy_execCount (h : stepCommand s sz = .next t) :
    t.busy = s.busy ∧ t.execCount = s.execCount := by
  rcases stepCommand_next_cases s sz with he | he <;> cases he.symm.trans h
  · exact ⟨rfl, rfl⟩
  · exact ⟨stateAfter_busy _ s sz, stateAfter_execCount _ s sz⟩

/-- A STEP is the same whatever EXEC_COUNT holds. -/
theorem stepCommand_setExecCount (h : stepCommand s sz = .next t) (n : BitVec 32) :
    stepCommand (s.setExecCount n) sz = .next (t.setExecCount n) := by
  cases hh : s.halted with
  | true =>
    cases (stepCommand_of_halted hh sz).symm.trans h
    exact stepCommand_of_halted (s := s.setExecCount n) hh sz
  | false =>
    cases (stepCommand_of_running hh sz).symm.trans h
    rw [stepCommand_of_running (s := s.setExecCount n) hh, stateAfter_setExecCount]
    rfl

end

/-! A command (R95, R101). -/

theorem perform_next (scope : CeilingScope) (c : Command W) (s : State W) (sz : Sizes) :
    ∃ t, perform scope c s sz = .next t := by
  cases c with
  | step => exact stepCommand_next s sz
  | reset | loadBegin | imemWrite | loadEnd | run => exact ⟨_, rfl⟩

section
variable {s : State W} {c : Command W}

theorem stepWith_of_accepted (hc : commandTaken s = some c) (hacc : accepts s c = true) (scope : CeilingScope)
    (sz : Sizes) : stepWith scope s sz = perform scope c (taken s) sz := by
  rcases stepWith_cases scope s (sz := sz) with ⟨h, -⟩ | ⟨h, -⟩ | ⟨d, hd, -, he⟩ | ⟨d, hd, hrej, -⟩
  · cases h.symm.trans hc
  · cases h.symm.trans hc
  · cases hd.symm.trans hc
    exact he
  · cases hd.symm.trans hc
    cases hrej.symm.trans hacc

theorem stepWith_of_not_accepted (hc : commandTaken s = some c) (hrej : accepts s c = false) (scope : CeilingScope)
    (sz : Sizes) : stepWith scope s sz = .refused (.commandNotAccepted c) := by
  rcases stepWith_cases scope s (sz := sz) with ⟨h, -⟩ | ⟨h, -⟩ | ⟨d, hd, hacc, -⟩ | ⟨d, hd, -, he⟩
  · cases h.symm.trans hc
  · cases h.symm.trans hc
  · cases hd.symm.trans hc
    cases hrej.symm.trans hacc
  · cases hd.symm.trans hc
    exact he

/-- STEP and RUN are accepted by a block that is neither in a RUN nor in a load. -/
theorem stepWith_of_idle (hc : commandTaken s = some c) (hrun : c = .step ∨ c = .run) (hbusy : s.busy = false)
    (hload : s.loading = false) (scope : CeilingScope) (sz : Sizes) :
    stepWith scope s sz = perform scope c (taken s) sz := by
  refine stepWith_of_accepted hc ?_ scope sz
  rcases hrun with rfl | rfl <;> rw [accepts, hbusy, hload] <;> rfl

end

theorem startRun_eq (scope : CeilingScope) (s : State W) : startRun scope s =
    { s with busy := true, execCount := if scope = .runCommand then 0 else s.execCount } := by
  cases scope <;> rfl

/-! A step with no command at hand (log 1, 2). -/

section
variable {s t : State W} {sz : Sizes}

theorem stepWith_of_no_command (h : commandTaken s = none) (scope : CeilingScope) (sz : Sizes) :
    stepWith scope s sz = proceed (s.setHost (hostAfter s)) sz := by
  rw [stepWith, h]

/-- With no input of the host, a step is one pass or nothing. -/
theorem stepWith_of_no_input (h : s.host = []) (scope : CeilingScope) (sz : Sizes) :
    stepWith scope s sz = proceed s sz := by
  have hnone : commandTaken s = none := by rw [commandTaken, h]
  have hafter : hostAfter s = s.host := by rw [hostAfter, h]
  rw [stepWith_of_no_command hnone, hafter]
  rfl

theorem proceed_of_busy (h : s.busy = true) (sz : Sizes) : proceed s sz = runTick s sz := if_pos h

theorem proceed_of_not_busy (h : s.busy = false) (sz : Sizes) : proceed s sz = .next s :=
  if_neg (Bool.not_eq_true _ ▸ h)

theorem stepWith_of_run (h : s.host = []) (hbusy : s.busy = true) (scope : CeilingScope) (sz : Sizes) :
    stepWith scope s sz = runTick s sz := (stepWith_of_no_input h scope sz).trans (proceed_of_busy hbusy sz)

theorem proceed_next (s : State W) (sz : Sizes) : ∃ t, proceed s sz = .next t := by
  cases h : s.busy with
  | true => rw [proceed_of_busy h]; exact runTick_next s sz
  | false => exact ⟨s, proceed_of_not_busy h sz⟩

theorem proceed_setHost (h : proceed s sz = .next t) (x : List (HostInput W)) :
    proceed (s.setHost x) sz = .next (t.setHost x) := by
  cases hb : s.busy with
  | true =>
    rw [proceed_of_busy hb] at h
    rw [proceed_of_busy (s := s.setHost x) hb, runTick_setHost h x]
  | false =>
    rw [proceed_of_not_busy hb] at h
    cases h
    exact proceed_of_not_busy (s := s.setHost x) hb sz

/-- An input that is no command at this step does what no input does. -/
theorem stepWith_of_no_command_eq (h : commandTaken s = none) (scope : CeilingScope) (sz : Sizes) :
    ∃ t, stepWith scope (s.setHost []) sz = .next t ∧ stepWith scope s sz = .next (t.setHost (hostAfter s)) := by
  obtain ⟨t, ht⟩ := proceed_next (s.setHost []) sz
  refine ⟨t, (stepWith_of_no_input rfl scope sz).trans ht, ?_⟩
  rw [stepWith_of_no_command h]
  exact proceed_setHost ht (hostAfter s)

end

/-! The placing of a word to run next (log 9). -/

/-- The PC of `withFetchWord` names a slot. -/
theorem inFetchRange_withFetchWord (s : State) (nbits w : Nat) :
    inFetchRange (s.withFetchWord nbits w).pc = true := by
  show inFetchRange (if inFetchRange s.pc then s.pc else 0) = true
  split
  · assumption
  · decide

theorem fetch_withFetchWord {s : State} (h : Memory.wf s.imem) (nbits w : Nat) :
    fetch (s.withFetchWord nbits w) = BitVec.ofNat 36 (w % 2 ^ nbits) := by
  rw [fetch_of_inFetchRange (inFetchRange_withFetchWord s nbits w)]
  exact (Memory.read_write h _ _ _).trans (if_pos rfl)

theorem withFetchWord_pc_of_inSlots {s : State} (h : InSlots s.pc) (nbits w : Nat) :
    (s.withFetchWord nbits w).pc = s.pc := if_pos (inFetchRange_iff_inSlots.2 h)

end Sys2Proof.Machine

namespace Sys2Proof.Claims

open Sys2Proof.Machine

/-- Settles O29: outside the slots the word fetched is empty, and both stop tests that can end a RUN there leave the
same state. -/
theorem fetchSeesSlotOrEmptyWord : Obligations.FetchSeesSlotOrEmptyWord := by
  refine fun s => ⟨fun k hk hpc => ?slot, fun hout => ⟨?word, ?advance⟩, fun scope hout hhost hbusy => ?run⟩
  case slot =>
    have hin : inFetchRange s.pc = true := inFetchRange_iff.2 (by omega)
    rw [fetch_of_inFetchRange hin, hpc, Int.toNat_natCast]
  case word => exact fetch_of_not_inFetchRange (inFetchRange_eq_false_iff.2 hout)
  case advance => rw [exec_eq_next, stateAfter_fetch_of_not_inSlots hout]
  case run =>
    rw [stepWith_of_run hhost hbusy, runTick_of_fetchBound (inFetchRange_eq_false_iff.2 hout)]
    rfl

/-- Settles O30: the cycle of a STEP and the counted cycle of a RUN. -/
theorem stepRunsTheDecodedInstruction : Obligations.StepRunsTheDecodedInstruction := by
  refine ⟨fun s hc hbusy hload hrunning => ⟨_, exec_eq_next _ _, ?step⟩,
    fun s hhost hbusy hrunning hin hcount => ⟨_, exec_eq_next _ _, ?run⟩⟩
  case step =>
    rw [step, stepWith_of_idle hc (.inl rfl) hbusy hload]
    exact stepCommand_of_running (s := taken s) hrunning _
  case run =>
    have hstop : runStop s = none := runStop_eq_none_iff.2 ⟨hrunning, inFetchRange_iff_inSlots.2 hin, hcount⟩
    rw [step, stepWith_of_run hhost hbusy, runTick_of_cycle hstop]
    rfl

/-- Settles O31: the next step is the STEP that `withFetchWord` puts first, and its fetch reads the word placed. -/
theorem withFetchWordRunsThatWordNext : Obligations.WithFetchWordRunsThatWordNext := by
  intro s nbits w hm hw
  obtain ⟨t, hexec, hstep⟩ := stepRunsTheDecodedInstruction.1 (s.withFetchWord nbits w) rfl rfl rfl rfl
  rw [fetch_withFetchWord hm] at hexec
  exact ⟨_, t, if_pos hw, hexec, hstep, fun hin => withFetchWord_pc_of_inSlots hin nbits w⟩

/-- Settles O32: STEP is nothing or one cycle, neither of which reads or writes EXEC_COUNT. -/
theorem stepCommandIsOneCycleOrNothing : Obligations.StepCommandIsOneCycleOrNothing := by
  intro scope s hc hbusy hload
  have hstep : stepWith scope s = stepCommand (taken s) := stepWith_of_idle hc (.inl rfl) hbusy hload scope _
  have hcycle : s.halted = false → stepWith scope s = .next (stateAfter (decode (fetch s)) (taken s)) := fun hh =>
    hstep.trans (stepCommand_of_running (s := taken s) hh _)
  obtain ⟨t, ht⟩ := stepCommand_next (taken s) Config.sizes
  obtain ⟨htbusy, htcount⟩ := stepCommand_busy_execCount ht
  refine ⟨fun hh => hstep.trans (stepCommand_of_halted (s := taken s) hh _), fun hh => ?exec, fun hh hout => ?advance,
    t, hstep.trans ht, htbusy.trans hbusy, htcount, fun n => ?same⟩
  case exec => rw [hcycle hh, exec_eq_next]
  case advance => rw [hcycle hh, stateAfter_fetch_of_not_inSlots hout]; rfl
  case same =>
    have hn := stepWith_of_idle (s := s.setExecCount n) hc (.inl rfl) hbusy hload scope Config.sizes
    exact hn.trans (stepCommand_setExecCount ht n)

/-- Settles O33: the start of a RUN, and one equation of `runTick` for each of the three stop tests and for the
cycle. -/
theorem runFollowsItsLoop : Obligations.RunFollowsItsLoop := by
  refine ⟨fun scope s hc hbusy hload => ?start, fun scope s hhost hbusy => ?loop⟩
  case start =>
    rw [stepWith_of_idle hc (.inr rfl) hbusy hload, perform, startRun_eq]
    rfl
  case loop =>
    rw [stepWith_of_run hhost hbusy]
    refine ⟨runTick_of_halted, fun _ hout => runTick_of_fetchBound (inFetchRange_eq_false_iff.2 hout),
      fun hh hin hcount => runTick_of_runaway ?ceiling,
      fun hh hin hcount => ⟨_, exec_eq_next _ _, runTick_of_cycle ?cycle⟩⟩
    case ceiling => exact runStop_eq_runaway_iff.2 ⟨hh, inFetchRange_iff_inSlots.2 hin, hcount⟩
    case cycle => exact runStop_eq_none_iff.2 ⟨hh, inFetchRange_iff_inSlots.2 hin, hcount⟩

/-- Settles O41: both are the next state of the decoded instruction, of two states of the same program. -/
theorem runCycleEqualsStepCycle : Obligations.RunCycleEqualsStepCycle := by
  intro scope s hh hin hcount
  have hstop : runStop { s with busy := true, loading := false, host := [] } = none :=
    runStop_eq_none_iff.2 ⟨hh, inFetchRange_iff_inSlots.2 hin, hcount⟩
  have hsame : SameProgramState (taken { s with busy := false, loading := false, host := [.issue .step] })
      { s with busy := true, loading := false, host := [] } := ⟨rfl, rfl, rfl, rfl, rfl, rfl, rfl, rfl, rfl⟩
  have hstep := stepWith_of_idle (s := { s with busy := false, loading := false, host := [.issue .step] }) rfl
    (.inl rfl) rfl rfl scope Config.sizes
  have hcycle := stepCommand_of_running
    (s := taken { s with busy := false, loading := false, host := [.issue .step] }) hh Config.sizes
  have hrun := (stepWith_of_run rfl rfl scope _).trans (runTick_of_cycle hstop)
  exact ⟨_, _, hstep.trans hcycle, hrun, hsame.stateAfter (decode (fetch s)) Config.sizes⟩

/-- Settles O42: `accepts` is the table of commands, and an accepted command completes. -/
theorem commandsAreAcceptedOrRefused : Obligations.CommandsAreAcceptedOrRefused := by
  intro scope s c hc accepted
  have hacc : accepts s c = true ↔ accepted := by
    cases c <;> simp [accepts, accepted]
  refine ⟨fun h => ?accepted, fun h => ?refused⟩
  case accepted =>
    rw [stepWith_of_accepted hc (hacc.2 h)]
    exact perform_next scope c _ _
  case refused => exact stepWith_of_not_accepted hc (Bool.eq_false_iff.2 (mt hacc.1 h)) scope _

/-- Settles O47: a step reads of the host's inputs only the command it takes. -/
theorem noCommandWaitsOrGoesOn : Obligations.NoCommandWaitsOrGoesOn := by
  refine fun scope s => ⟨fun hhost hbusy => ?idle, fun rest hhost => ?quiet, fun c rest hhost =>
    ⟨fun hbusy => ?busy, fun hbusy => ?issued⟩⟩
  case idle => exact (stepWith_of_no_input hhost scope _).trans (proceed_of_not_busy hbusy _)
  case quiet =>
    have hnone : commandTaken s = none := by rw [commandTaken, hhost]
    have hafter : hostAfter s = rest := by rw [hostAfter, hhost]
    exact hafter ▸ stepWith_of_no_command_eq hnone scope Config.sizes
  case busy =>
    have hnone : commandTaken s = none := by rw [commandTaken, hhost, hbusy]; rfl
    have hafter : hostAfter s = s.host := by rw [hostAfter, hhost, hbusy]; rfl
    have hsame := stepWith_of_no_command_eq hnone scope Config.sizes
    rwa [hafter] at hsame
  case issued =>
    have hc : commandTaken s = some c := by rw [commandTaken, hhost, hbusy]; rfl
    have hafter : hostAfter s = rest := by rw [hostAfter, hhost, hbusy]; rfl
    rw [stepWith, hc, hafter]
    rfl

end Sys2Proof.Claims
end

