-- ==== Sys2Proof/Proofs/StepEvents.lean ====
section
/-!
SUPPORT. What one step does to EXEC_COUNT (43_sequencer.md R102), to H (R99) and to RUNAWAY (R106): first for one pass
of a RUN, then for a command, then for the step.
-/
namespace Sys2Proof.Machine

open Sys2Proof.Claims

variable {W : Widths}

/-- What a step that answers a next state can be: a wait, one pass of a RUN, or an accepted command. -/
theorem stepWith_inversion {scope : CeilingScope} {s t : State W} {sz : Sizes} (ht : stepWith scope s sz = .next t) :
    (commandTaken s = none ∧ s.busy = false ∧ t = s.setHost (hostAfter s)) ∨
    (commandTaken s = none ∧ s.busy = true ∧ ∃ u, runTick s sz = .next u ∧ t = u.setHost (hostAfter s)) ∨
    (∃ c, commandTaken s = some c ∧ perform scope c (taken s) sz = .next t) := by
  rcases stepWith_cases scope s (sz := sz) with ⟨hc, hb, he⟩ | ⟨hc, hb, he⟩ | ⟨c, hc, -, he⟩ | ⟨c, -, -, he⟩
  · cases he.symm.trans ht
    exact .inl ⟨hc, hb, rfl⟩
  · obtain ⟨u, hu⟩ := runTick_next s sz
    cases (he.trans (runTick_setHost hu _)).symm.trans ht
    exact .inr (.inl ⟨hc, hb, u, hu, rfl⟩)
  · exact .inr (.inr ⟨c, hc, he.symm.trans ht⟩)
  · cases he.symm.trans ht

/-! What IMEM_WRITE and the start of a RUN leave alone. -/

section
variable (scope : CeilingScope) (a : Int) (w : IWord W) (s : State W) (sz : Sizes)

theorem imemWrite_eq_setImem : imemWrite a w s sz = s.setImem (imemWrite a w s sz).imem := by
  unfold imemWrite
  split <;> rfl

@[simp] theorem imemWrite_execCount : (imemWrite a w s sz).execCount = s.execCount := by rw [imemWrite_eq_setImem]; rfl
@[simp] theorem imemWrite_halted : (imemWrite a w s sz).halted = s.halted := by rw [imemWrite_eq_setImem]; rfl
@[simp] theorem imemWrite_runaway : (imemWrite a w s sz).runaway = s.runaway := by rw [imemWrite_eq_setImem]; rfl

theorem sameProgramState_startRun : SameProgramState s (startRun scope s) := by
  rw [startRun_eq]
  exact ⟨rfl, rfl, rfl, rfl, rfl, rfl, rfl, rfl, rfl⟩

@[simp] theorem startRun_halted : (startRun scope s).halted = s.halted := by cases scope <;> rfl
@[simp] theorem startRun_runaway : (startRun scope s).runaway = s.runaway := by cases scope <;> rfl

end

section
variable {scope : CeilingScope} {c : Command W} {s t : State W} {sz : Sizes}

/-! EXEC_COUNT (R102). -/

theorem runTick_execCount (ht : runTick s sz = .next t) :
    runStop s sz = none ∧ t.execCount = s.execCount + 1 ∨ runStop s sz ≠ none ∧ t.execCount = s.execCount := by
  rcases runTick_inversion ht with ⟨hs | hs, rfl⟩ | ⟨hs, rfl⟩ | ⟨hs, rfl⟩
  · exact .inr ⟨by simp [hs], rfl⟩
  · exact .inr ⟨by simp [hs], rfl⟩
  · exact .inr ⟨by simp [hs], rfl⟩
  · exact .inl ⟨hs, rfl⟩

/-- No command makes EXEC_COUNT grow: some clear it (R105), the others keep it. -/
theorem perform_execCount (ht : perform scope c s sz = .next t) : t.execCount = 0 ∨ t.execCount = s.execCount := by
  cases c with
  | reset =>
    cases ht
    exact .inl rfl
  | loadBegin =>
    cases ht
    rw [loadBegin_execCount]
    exact ite_eq_or_eq _ _ _
  | imemWrite a w =>
    cases ht
    exact .inr (imemWrite_execCount a w s sz)
  | loadEnd status =>
    cases ht
    exact .inr rfl
  | step => exact .inr (stepCommand_busy_execCount ht).2
  | run =>
    cases ht
    rw [startRun_eq]
    exact ite_eq_or_eq _ _ _

/-- Below the ceiling, which 32 bits hold, the count does not wrap (R26). -/
theorem execCount_succ_toNat (hceil : sz.runawayCeiling < 2 ^ 32) (h : s.execCount.toNat < sz.runawayCeiling) :
    (s.execCount + 1).toNat = s.execCount.toNat + 1 :=
  BitVec.toNat_add_of_lt (Nat.lt_of_le_of_lt h hceil)

/-! H (R99). -/

theorem stateAfter_halted_iff (i : Instr W) (s : State W) (sz : Sizes) :
    (stateAfter i s sz).halted = true ↔ s.halted = true ∨ i = .hlt := by
  cases i with
  | hlt => exact iff_of_true rfl (.inr rfl)
  | empty | dec | ldi | lda | str | xch | add | sub | jmp | jzs | jvs | reserved =>
    exact (or_iff_left nofun).symm

theorem runTick_halted_iff (ht : runTick s sz = .next t) (hh : s.halted = false) :
    t.halted = true ↔ decode (fetch s sz) = .hlt ∧ runStop s sz = none ∨ runStop s sz = some .runaway := by
  rcases runTick_inversion ht with ⟨hs | hs, rfl⟩ | ⟨hs, rfl⟩ | ⟨hs, rfl⟩
  · simp [hs, hh]
  · simp [hs, hh]
  · simp [hs]
  · simp [hs, hh, stateAfter_halted_iff]

/-- A STEP halts the block at a HLT, RESET and LOAD_BEGIN make it run, and no other command changes H. -/
theorem perform_halted_cases (ht : perform scope c s sz = .next t) :
    (c = .reset ∨ c = .loadBegin) ∧ t.halted = false ∨
    c = .step ∧ (t.halted = true ↔ s.halted = true ∨ decode (fetch s sz) = .hlt) ∨
    c ∉ [.reset, .loadBegin, .step] ∧ t.halted = s.halted := by
  cases c with
  | reset =>
    cases ht
    exact .inl ⟨.inl rfl, rfl⟩
  | loadBegin =>
    cases ht
    exact .inl ⟨.inr rfl, (freshButImem_loadBegin scope s).running⟩
  | step =>
    refine .inr (.inl ⟨rfl, ?_⟩)
    cases hh : s.halted with
    | true =>
      cases (stepCommand_of_halted hh sz).symm.trans ht
      exact iff_of_true hh (.inl rfl)
    | false =>
      cases (stepCommand_of_running hh sz).symm.trans ht
      rw [stateAfter_halted_iff, hh]
  | imemWrite a w =>
    cases ht
    exact .inr (.inr ⟨by simp, imemWrite_halted a w s sz⟩)
  | loadEnd status =>
    cases ht
    exact .inr (.inr ⟨by simp, rfl⟩)
  | run =>
    cases ht
    exact .inr (.inr ⟨by simp, startRun_halted scope s⟩)

/-- From Running to Halted: at a cycle of a HLT and at a force-halt. -/
theorem stepWith_halted_iff_of_running (ht : stepWith scope s sz = .next t) (hh : s.halted = false) :
    t.halted = true ↔
      decode (fetch s sz) = .hlt ∧
        (commandTaken s = some .step ∨ commandTaken s = none ∧ s.busy = true ∧ runStop s sz = none) ∨
      commandTaken s = none ∧ s.busy = true ∧ runStop s sz = some .runaway := by
  rcases stepWith_inversion ht with ⟨hc, hb, rfl⟩ | ⟨hc, hb, u, hu, rfl⟩ | ⟨c, hc, hp⟩
  · simp [hc, hb, hh]
  · simp [hc, hb, runTick_halted_iff hu hh]
  · have hfetch : fetch (taken s) sz = fetch s sz := rfl
    have hh' : (taken s).halted = false := hh
    rcases perform_halted_cases hp with ⟨rfl | rfl, htf⟩ | ⟨rfl, hiff⟩ | ⟨hne, hsame⟩
    · simp [hc, htf]
    · simp [hc, htf]
    · simp [hc, hiff, hh', hfetch]
    · have hstep : c ≠ .step := fun h => hne (by simp [h])
      simp [hc, hsame, hh', hstep]

/-- From Halted to Running: at RESET and at LOAD_BEGIN. -/
theorem stepWith_halted_iff_of_halted (ht : stepWith scope s sz = .next t) (hh : s.halted = true) :
    t.halted = false ↔ commandTaken s = some .reset ∨ commandTaken s = some .loadBegin := by
  rcases stepWith_inversion ht with ⟨hc, -, rfl⟩ | ⟨hc, -, u, hu, rfl⟩ | ⟨c, hc, hp⟩
  · simp [hc, hh]
  · cases (runTick_of_halted hh).symm.trans hu
    simp [hc, hh]
  · have hh' : (taken s).halted = true := hh
    rcases perform_halted_cases hp with ⟨rfl | rfl, htf⟩ | ⟨rfl, hiff⟩ | ⟨hne, hsame⟩
    · simp [hc, htf]
    · simp [hc, htf]
    · simp [hc, hiff.2 (.inl hh')]
    · have hfresh : c ≠ .reset ∧ c ≠ .loadBegin := ⟨fun h => hne (by simp [h]), fun h => hne (by simp [h])⟩
      simp [hc, hsame, hh', hfresh]

theorem stepWith_running_of_fresh (ht : stepWith scope s sz = .next t)
    (hc : commandTaken s = some .reset ∨ commandTaken s = some .loadBegin) : t.halted = false := by
  cases hh : s.halted with
  | true => exact (stepWith_halted_iff_of_halted ht hh).2 hc
  | false =>
    refine Bool.eq_false_iff.2 fun hhalted => ?_
    have hevent := (stepWith_halted_iff_of_running ht hh).1 hhalted
    rcases hc with hc | hc <;> simp [hc] at hevent

/-- While Halted nothing executes (R25, R121). -/
theorem sameProgramState_of_halted (ht : stepWith scope s sz = .next t) (hh : s.halted = true)
    (hc : commandTaken s = some .step ∨ commandTaken s = some .run ∨ commandTaken s = none) :
    SameProgramState s t := by
  rcases stepWith_inversion ht with ⟨-, -, rfl⟩ | ⟨-, -, u, hu, rfl⟩ | ⟨c, hs, hp⟩
  · exact ⟨rfl, rfl, rfl, rfl, rfl, rfl, rfl, rfl, rfl⟩
  · cases (runTick_of_halted hh).symm.trans hu
    exact ⟨rfl, rfl, rfl, rfl, rfl, rfl, rfl, rfl, rfl⟩
  · rcases hc with hc | hc | hc <;> cases hs.symm.trans hc
    · cases (stepCommand_of_halted (s := taken s) hh sz).symm.trans hp
      exact ⟨rfl, rfl, rfl, rfl, rfl, rfl, rfl, rfl, rfl⟩
    · cases hp
      exact sameProgramState_startRun scope (taken s)

/-! RUNAWAY (R106). -/

theorem runTick_runaway_iff (ht : runTick s sz = .next t) (hr : s.runaway = false) :
    t.runaway = true ↔ runStop s sz = some .runaway := by
  rcases runTick_inversion ht with ⟨hs | hs, rfl⟩ | ⟨hs, rfl⟩ | ⟨hs, rfl⟩ <;> simp [hs, hr]

theorem perform_runaway (ht : perform scope c s sz = .next t) (hr : s.runaway = false) : t.runaway = false := by
  cases c with
  | reset =>
    cases ht
    rfl
  | loadBegin =>
    cases ht
    exact (freshButImem_loadBegin scope s).runaway
  | imemWrite a w =>
    cases ht
    exact (imemWrite_runaway a w s sz).trans hr
  | loadEnd status =>
    cases ht
    exact hr
  | step =>
    rcases stepCommand_next_cases s sz with he | he <;> cases he.symm.trans ht
    · exact hr
    · exact (stateAfter_runaway _ s sz).trans hr
  | run =>
    cases ht
    exact (startRun_runaway scope s).trans hr

theorem stepWith_runaway_iff (ht : stepWith scope s sz = .next t) (hr : s.runaway = false) :
    t.runaway = true ↔ commandTaken s = none ∧ s.busy = true ∧ runStop s sz = some .runaway := by
  rcases stepWith_inversion ht with ⟨hc, hb, rfl⟩ | ⟨hc, hb, u, hu, rfl⟩ | ⟨c, hc, hp⟩
  · simp [hc, hb, hr]
  · simp [hc, hb, runTick_runaway_iff hu hr]
  · simp [hc, perform_runaway hp rfl]

/-- The force-halt as a step. -/
theorem stepWith_of_runaway (hc : commandTaken s = none) (hb : s.busy = true) (hs : runStop s sz = some .runaway)
    (scope : CeilingScope) : stepWith scope s sz =
      .next ((((s.setHalted true).setRunaway true).setBusy false).setHost (hostAfter s)) := by
  rw [stepWith_of_no_command hc]
  exact proceed_setHost ((proceed_of_busy hb sz).trans (runTick_of_runaway hs)) _

end

end Sys2Proof.Machine

namespace Sys2Proof.Claims

open Sys2Proof.Machine

/-- Settles O34: only a cycle of a RUN counts; a stop keeps the count, and a command keeps or clears it. -/
theorem execCountGrowsOnlyByRunCycles : Obligations.ExecCountGrowsOnlyByRunCycles := by
  intro scope s t ht
  rcases stepWith_inversion ht with ⟨hc, hb, rfl⟩ | ⟨hc, hb, u, hu, rfl⟩ | ⟨c, hc, hp⟩
  · exact ⟨fun hb' => absurd (hb.symm.trans hb') Bool.false_ne_true, fun hlt => absurd hlt (Nat.lt_irrefl _)⟩
  · rcases runTick_execCount hu with ⟨hs, hcount⟩ | ⟨hs, hcount⟩
    · have hsucc : (s.execCount + 1).toNat = s.execCount.toNat + 1 :=
        execCount_succ_toNat (sz := Config.sizes) (by decide) (runStop_eq_none_iff.1 hs).2.2
      exact ⟨fun _ _ _ => (congrArg BitVec.toNat hcount).trans hsucc, fun _ => ⟨hb, hc, hs⟩⟩
    · refine ⟨fun _ _ hs' => absurd hs' hs, fun hlt => ?_⟩
      rw [State.setHost_execCount, hcount] at hlt
      exact absurd hlt (Nat.lt_irrefl _)
  · refine ⟨fun _ hc' => absurd (hc.symm.trans hc') nofun, fun hlt => ?_⟩
    rcases perform_execCount hp with hcount | hcount <;> rw [hcount] at hlt
    · exact absurd hlt (Nat.not_lt_zero _)
    · exact absurd hlt (Nat.lt_irrefl _)

/-- Settles O36: one law for each transition. -/
theorem haltStateMachineTransitions : Obligations.HaltStateMachineTransitions := by
  refine fun scope s t ht => ⟨fun hh => ?halts, stepWith_halted_iff_of_halted ht, sameProgramState_of_halted ht,
    stepWith_running_of_fresh ht⟩
  have hstop : runStop s = some .runaway ↔ InSlots s.pc ∧ 1000 ≤ s.execCount.toNat := by
    rw [runStop_eq_runaway_iff, inFetchRange_iff_inSlots, hh, eq_self, true_and]
  rw [stepWith_halted_iff_of_running ht hh, hstop]

/-- Settles O37: the one step that raises RUNAWAY is the force-halt, whose next state is `stepWith_of_runaway`. -/
theorem runawayRisesExactlyAtForceHalt : Obligations.RunawayRisesExactlyAtForceHalt := by
  intro scope s t ht hr
  have hiff := stepWith_runaway_iff ht hr
  refine ⟨?event, fun hrise => ?frame⟩
  case event => rw [hiff, runStop_eq_runaway_iff, inFetchRange_iff_inSlots]
  case frame =>
    obtain ⟨hc, hb, hs⟩ := hiff.1 hrise
    cases (stepWith_of_runaway hc hb hs scope).symm.trans ht
    exact ⟨rfl, rfl, rfl, rfl, rfl, rfl, rfl, rfl, rfl, rfl⟩

end Sys2Proof.Claims
end

