-- ==== Sys2Proof/Proofs/WholeRuns.lean ====
section
/-!
SUPPORT. A RUN from its start to its end (43_sequencer.md R101 to R107): with no input of the host its steps are the
passes of `runLoop` (log 1), the ceiling bounds them, and an invariant of the passes says how it can end.
-/
namespace Sys2Proof.Machine

open Sys2Proof.Claims

variable {W : Widths} {s t : State W} {sz : Sizes}

/-! The loop, pass by pass. -/

theorem runLoop_of_not_busy (h : s.busy = false) (n : Nat) : runLoop n s sz = .next s := by
  cases n with
  | zero => rfl
  | succ n => rw [runLoop, h]; rfl

theorem runLoop_succ (hb : s.busy = true) (ht : runTick s sz = .next t) (n : Nat) :
    runLoop (n + 1) s sz = runLoop n t sz := by
  rw [runLoop, if_pos hb, ht]

/-- The pass that ends a RUN. -/
theorem runLoop_of_last_pass (hb : s.busy = true) (ht : runTick s sz = .next t) (hend : t.busy = false) (n : Nat) :
    runLoop (n + 1) s sz = .next t := by
  rw [runLoop_succ hb ht, runLoop_of_not_busy hend]

/-- What every pass keeps holds of the state the loop leaves. -/
theorem runLoop_invariant {P : State W → Prop}
    (hpass : ∀ {s t : State W}, P s → s.busy = true → runTick s sz = .next t → P t) {n : Nat} (hs : P s)
    (ht : runLoop n s sz = .next t) : P t := by
  induction n generalizing s with
  | zero =>
    cases ht
    exact hs
  | succ n ih =>
    cases hb : s.busy with
    | false =>
      cases (runLoop_of_not_busy hb _).symm.trans ht
      exact hs
    | true =>
      obtain ⟨u, hu⟩ := runTick_next s sz
      exact ih (hpass hs hb hu) (runLoop_succ hb hu n ▸ ht)

/-- A RUN ends within the cycles the ceiling leaves it, and one pass more (R107). -/
theorem runLoop_ends (hceil : sz.runawayCeiling < 2 ^ 32) {n : Nat} (hn : sz.runawayCeiling - s.execCount.toNat < n) :
    ∃ t, runLoop n s sz = .next t ∧ t.busy = false := by
  induction n generalizing s with
  | zero => exact absurd hn (Nat.not_lt_zero _)
  | succ n ih =>
    cases hb : s.busy with
    | false => exact ⟨s, runLoop_of_not_busy hb _, hb⟩
    | true =>
      obtain ⟨u, hu⟩ := runTick_next s sz
      rcases runTick_inversion hu with ⟨-, rfl⟩ | ⟨-, rfl⟩ | ⟨hs, rfl⟩
      · exact ⟨_, runLoop_of_last_pass hb hu rfl n, rfl⟩
      · exact ⟨_, runLoop_of_last_pass hb hu rfl n, rfl⟩
      · have hlt := (runStop_eq_none_iff_at.1 hs).2.2
        have hsucc := execCount_succ_toNat hceil hlt
        rw [runLoop_succ hb hu]
        exact ih (by rw [State.setExecCount_execCount, hsucc]; omega)

/-- Once a RUN has ended, more passes change nothing. -/
theorem runLoop_of_le {n m : Nat} (h : runLoop n s sz = .next t) (hend : t.busy = false) (hle : n ≤ m) :
    runLoop m s sz = .next t := by
  induction n generalizing s m with
  | zero =>
    cases h
    exact runLoop_of_not_busy hend m
  | succ n ih =>
    cases hb : s.busy with
    | false =>
      cases (runLoop_of_not_busy hb _).symm.trans h
      exact runLoop_of_not_busy hb m
    | true =>
      obtain ⟨u, hu⟩ := runTick_next s sz
      obtain ⟨k, rfl⟩ : ∃ k, m = k + 1 := ⟨m - 1, by omega⟩
      rw [runLoop_succ hb hu] at h ⊢
      exact ih h (Nat.le_of_succ_le_succ hle)

theorem runTick_host (ht : runTick s sz = .next t) : t.host = s.host := by
  rcases runTick_inversion ht with ⟨-, rfl⟩ | ⟨-, rfl⟩ | ⟨-, rfl⟩
  · rfl
  · rfl
  · exact stateAfter_host _ s sz

/-- The steps of a block whose host issues nothing are the passes of its RUN (R95, R101). -/
theorem stepsWith_eq_runLoop (hhost : s.host = []) (scope : CeilingScope) (n : Nat) :
    stepsWith scope n s sz = runLoop n s sz := by
  induction n generalizing s with
  | zero => rfl
  | succ n ih =>
    cases hb : s.busy with
    | false =>
      have hwait := (stepWith_of_no_input hhost scope sz).trans (proceed_of_not_busy hb sz)
      rw [stepsWith_succ_of_next hwait, ih hhost, runLoop_of_not_busy hb, runLoop_of_not_busy hb]
    | true =>
      obtain ⟨u, hu⟩ := runTick_next s sz
      rw [stepsWith_succ_of_next ((stepWith_of_run hhost hb scope sz).trans hu), runLoop_succ hb hu]
      exact ih ((runTick_host hu).trans hhost)

/-! How a RUN ends (R107). -/

/-- Where H is true, it was so in `s`, or PC is still at the HLT that set it. -/
def HaltedByHlt (s u : State W) (sz : Sizes) : Prop :=
  u.halted = true → s.halted = true ∨ decode (fetch u sz) = .hlt

/-- The three ends of a RUN that passes through `s`. -/
def RunEnd (s t : State W) (sz : Sizes) : Prop :=
  t.halted = true ∧ t.runaway = false ∧ (s.halted = true ∨ decode (fetch t sz) = .hlt) ∨
  t.halted = true ∧ t.runaway = true ∧ inFetchRange t.pc sz = true ∧ sz.runawayCeiling ≤ t.execCount.toNat ∨
  t.halted = false ∧ t.runaway = false ∧ inFetchRange t.pc sz = false

/-- What every pass of a RUN that passes through `s` keeps. -/
structure RunInv (s u : State W) (sz : Sizes) : Prop where
  quiet : u.busy = true → u.runaway = false
  halt : u.busy = true → HaltedByHlt s u sz
  ended : u.busy = false → RunEnd s u sz

theorem RunInv.of_busy (hb : s.busy = true) (hr : s.runaway = false) : RunInv s s sz where
  quiet _ := hr
  halt _ := .inl
  ended hb' := absurd (hb'.symm.trans hb) Bool.false_ne_true

theorem RunInv.of_ended (hb : t.busy = false) (h : RunEnd s t sz) : RunInv s t sz where
  quiet hb' := absurd (hb.symm.trans hb') Bool.false_ne_true
  halt hb' := absurd (hb.symm.trans hb') Bool.false_ne_true
  ended _ := h

/-- A cycle of a HLT leaves PC at the HLT. -/
theorem fetch_stateAfter_hlt (s : State W) (sz : Sizes) : fetch (stateAfter .hlt s sz) sz = fetch s sz := rfl

theorem RunInv.after_runTick {u : State W} (h : RunInv s u sz) (hb : u.busy = true) (ht : runTick u sz = .next t) :
    RunInv s t sz := by
  rcases runTick_inversion ht with ⟨hs | hs, rfl⟩ | ⟨hs, rfl⟩ | ⟨hs, rfl⟩
  · have hh := runStop_eq_halted_iff_at.1 hs
    exact .of_ended rfl (.inl ⟨hh, h.quiet hb, h.halt hb hh⟩)
  · obtain ⟨hh, hpc⟩ := runStop_eq_fetchBound_iff_at.1 hs
    exact .of_ended rfl (.inr (.inr ⟨hh, h.quiet hb, hpc⟩))
  · obtain ⟨-, hpc, hcount⟩ := runStop_eq_runaway_iff_at.1 hs
    exact .of_ended rfl (.inr (.inl ⟨rfl, rfl, hpc, hcount⟩))
  · have hh := (runStop_eq_none_iff_at.1 hs).1
    have hbusy : (stateAfter (decode (fetch u sz)) u sz).busy = true := (stateAfter_busy _ u sz).trans hb
    refine ⟨fun _ => (stateAfter_runaway _ u sz).trans (h.quiet hb), fun _ hhalted => .inr ?_,
      fun hb' => absurd (hb'.symm.trans hbusy) Bool.false_ne_true⟩
    have hhlt : decode (fetch u sz) = .hlt :=
      ((stateAfter_halted_iff _ u sz).1 hhalted).resolve_left (Bool.not_eq_true _ ▸ hh)
    show decode (fetch (stateAfter (decode (fetch u sz)) u sz) sz) = .hlt
    rw [hhlt, fetch_stateAfter_hlt, hhlt]

/-- A RUN ends within the ceiling in one of the three ways. -/
theorem runLoop_runEnd (hceil : sz.runawayCeiling < 2 ^ 32) (hb : s.busy = true) (hr : s.runaway = false) {n : Nat}
    (hn : sz.runawayCeiling - s.execCount.toNat < n) :
    ∃ t, runLoop n s sz = .next t ∧ t.busy = false ∧ RunEnd s t sz := by
  obtain ⟨t, ht, hend⟩ := runLoop_ends hceil hn
  exact ⟨t, ht, hend, (runLoop_invariant RunInv.after_runTick (RunInv.of_busy hb hr) ht).ended hend⟩

/-! A jump to itself (R89, R103). -/

theorem stateAfter_jmp_self {addr : Opnd W} (h : target addr = s.pc) (sz : Sizes) :
    stateAfter (.jmp addr) s sz = s := by
  rw [stateAfter, h]
  rfl

/-- Each pass only counts, until the count is at the ceiling. -/
theorem runLoop_jmp_self (hceil : sz.runawayCeiling < 2 ^ 32) {addr : Opnd W} {k : Nat} (hb : s.busy = true)
    (hh : s.halted = false) (hpc : inFetchRange s.pc sz = true) (hjmp : decode (fetch s sz) = .jmp addr)
    (htarget : target addr = s.pc) (hk : s.execCount.toNat + k = sz.runawayCeiling) :
    runLoop (k + 1) s sz =
      .next { s with halted := true, runaway := true, busy := false
                     execCount := BitVec.ofNat 32 sz.runawayCeiling } := by
  induction k generalizing s with
  | zero =>
    have hstop : runStop s sz = some .runaway := runStop_eq_runaway_iff_at.2 ⟨hh, hpc, Nat.le_of_eq hk.symm⟩
    have hcount : BitVec.ofNat 32 sz.runawayCeiling = s.execCount := by
      rw [← hk, Nat.add_zero, BitVec.ofNat_toNat, BitVec.setWidth_eq]
    rw [hcount]
    exact runLoop_of_last_pass hb (runTick_of_runaway hstop) rfl 0
  | succ k ih =>
    have hlt : s.execCount.toNat < sz.runawayCeiling := by omega
    have hpass := runTick_of_cycle (runStop_eq_none_iff_at.2 ⟨hh, hpc, hlt⟩)
    rw [hjmp, stateAfter_jmp_self htarget] at hpass
    rw [runLoop_succ hb hpass]
    refine ih (s := s.setExecCount (s.execCount + 1)) hb hh hpc hjmp htarget ?_
    rw [State.setExecCount_execCount, execCount_succ_toNat hceil hlt]
    omega

end Sys2Proof.Machine

namespace Sys2Proof.Claims

open Sys2Proof.Machine

/-- Settles O35: the first pass of the RUN ends it, or, at a HLT, the second one does. -/
theorem runStopsAreTestedInOrder : Obligations.RunStopsAreTestedInOrder := by
  intro scope s started
  have hrun : runToHalt scope s = runLoop 1001 (started.setBusy true) := by
    rw [runToHalt, startRun_eq]
    rfl
  rw [hrun]
  refine ⟨fun hh => ?halted, fun _ hout => ?fetchBound, fun hh hin hcount => ?ceiling,
    fun hh hin hcount hhlt => ?hlt⟩
  case halted => exact runLoop_of_last_pass (s := started.setBusy true) rfl (runTick_of_halted hh) rfl _
  case fetchBound =>
    exact runLoop_of_last_pass (s := started.setBusy true) rfl
      (runTick_of_fetchBound (inFetchRange_eq_false_iff.2 hout)) rfl _
  case ceiling =>
    have hstop : runStop (started.setBusy true) = some .runaway :=
      runStop_eq_runaway_iff.2 ⟨hh, inFetchRange_iff_inSlots.2 hin, hcount⟩
    exact runLoop_of_last_pass rfl (runTick_of_runaway hstop) rfl _
  case hlt =>
    have hstop : runStop (started.setBusy true) = none :=
      runStop_eq_none_iff.2 ⟨hh, inFetchRange_iff_inSlots.2 hin, hcount⟩
    have hpass : runTick (started.setBusy true) = .next
        (((started.setBusy true).setHalted true).setExecCount (started.execCount + 1)) := by
      rw [runTick_of_cycle hstop, show fetch (started.setBusy true) = fetch s from rfl, hhlt]
      rfl
    rw [runLoop_succ rfl hpass]
    exact runLoop_of_last_pass rfl (runTick_of_halted rfl) rfl _

/-- Settles O38: the steps are the passes of `runLoop`, which ends as `runLoop_runEnd` says. -/
theorem runEndsInOneOfThreeStates : Obligations.RunEndsInOneOfThreeStates := by
  intro scope s hb hhost hr
  obtain ⟨t, ht, hend, hways⟩ := runLoop_runEnd (sz := Config.sizes) (by decide) hb hr (Nat.lt_succ_self _)
  refine ⟨_, t, Nat.le_refl _, (stepsWith_eq_runLoop hhost scope _).trans ht, hend, ?_⟩
  rwa [RunEnd, inFetchRange_eq_false_iff, inFetchRange_iff_inSlots] at hways

/-- Settles O39: the first step starts the RUN, the others are its passes. -/
theorem stepsOfARunAreOneTransaction : Obligations.StepsOfARunAreOneTransaction := by
  intro scope s hc hhost hbusy hload
  have hstart : stepWith scope s = .next (startRun scope (taken s)) :=
    stepWith_of_idle hc (.inr rfl) hbusy hload scope _
  have hhost' : (startRun scope (taken s)).host = [] := by rw [startRun_eq]; exact hhost
  obtain ⟨t, ht, hend⟩ := runLoop_ends (s := startRun scope (taken s)) (sz := Config.sizes) (n := 1001) (by decide)
    (Nat.lt_succ_of_le (Nat.sub_le _ _))
  refine ⟨t, ht, hend, fun n hn => ?_⟩
  obtain ⟨k, rfl⟩ : ∃ k, n = k + 1 := ⟨n - 1, by omega⟩
  rw [stepsWith_succ_of_next hstart, stepsWith_eq_runLoop hhost']
  exact runLoop_of_le ht hend (Nat.le_of_succ_le_succ hn)

/-- Settles O40: a JMP to its own address changes nothing, so the passes only count. -/
theorem jumpToItselfForceHaltsAtTheCeiling : Obligations.JumpToItselfForceHaltsAtTheCeiling := by
  intro scope s hb hhost hh hin hjmp hcount
  rw [stepsWith_eq_runLoop hhost]
  exact runLoop_jmp_self (by decide) hb hh (inFetchRange_iff_inSlots.2 hin) hjmp (target_eq s.pc)
    (Nat.add_sub_of_le hcount)

end Sys2Proof.Claims
end

