-- ==== Sys2Proof/Proofs/Conditions.lean ====
section
/-!
SUPPORT. The conditions handled in place of exceptions (60_exceptions.md R109 to R113): every step completes or refuses
its command, each condition by its cause, and the one condition that a cycle can meet or a stop of a RUN report.
-/
namespace Sys2Proof

variable {W : Widths} {w : IWord W}

/-! The two kinds of word that are no-ops (30_encoding.md R62, R63), by their opcode field. -/

theorem decode_eq_empty_iff : decode w = .empty ↔ (opField w).toNat = 0 := by
  refine ⟨fun h => ?_, fun h => ?_⟩
  · rw [← opcodeOf_decode, h]
    rfl
  · rw [decode, h]
    rfl

theorem decode_eq_reserved_iff : decode w = .reserved (opField w) ↔ 12 ≤ (opField w).toNat := by
  refine ⟨fun h => ?_, fun h => ?_⟩
  · have hwf := wf_decode w
    rw [h] at hwf
    exact of_decide_eq_true hwf
  · have hdecode := decode_mkWord_reserved_at (opndField w) h
    rwa [mkWord_fields_at] at hdecode

end Sys2Proof

namespace Sys2Proof.Machine

open Sys2Proof.Claims

variable {W : Widths} {s : State W} {sz : Sizes}

/-! The outcome of a step (R109). -/

theorem stepWith_next_of_no_command (h : commandTaken s = none) (scope : CeilingScope) (sz : Sizes) :
    ∃ t, stepWith scope s sz = .next t := by
  rw [stepWith_of_no_command h]
  exact proceed_next _ sz

theorem SafeOutcome.of_next {o : Outcome W} (h : ∃ t, o = .next t) : SafeOutcome s o := by
  obtain ⟨t, rfl⟩ := h
  trivial

theorem safeOutcome_stepWith (scope : CeilingScope) (s : State W) (sz : Sizes) :
    SafeOutcome s (stepWith scope s sz) := by
  cases hc : commandTaken s with
  | none => exact .of_next (stepWith_next_of_no_command hc scope sz)
  | some c =>
    cases hacc : accepts s c with
    | true =>
      rw [stepWith_of_accepted hc hacc]
      exact .of_next (perform_next scope c (taken s) sz)
    | false =>
      rw [stepWith_of_not_accepted hc hacc]
      exact ⟨c, rfl, hacc⟩

/-! The causes of the conditions (R110). -/

theorem meetsInCycle_emptySlot_iff :
    meetsInCycle s .emptySlot sz = true ↔ inFetchRange s.pc sz = true ∧ (opField (fetch s sz)).toNat = 0 := by
  rw [meetsInCycle, Bool.and_eq_true, beq_iff_eq, decode_eq_empty_iff]

theorem meetsInCycle_reservedOpcode_iff :
    meetsInCycle s .reservedOpcode sz = true ↔
      inFetchRange s.pc sz = true ∧ 12 ≤ (opField (fetch s sz)).toNat := by
  rw [meetsInCycle, Bool.and_eq_true, beq_iff_eq, decode_eq_reserved_iff]

theorem meetsInCycle_fetchOutOfRange_iff :
    meetsInCycle s .fetchOutOfRange sz = true ↔ inFetchRange s.pc sz = false := by
  rw [meetsInCycle, Bool.not_eq_true']

theorem resolvesOutOfRange_iff {i : Instr W} :
    resolvesOutOfRange i s sz = true ↔
      ∃ sym, symbolOf i = some sym ∧ ¬ inDataRange (resolve sym s sz).1 sz = true := by
  unfold resolvesOutOfRange
  cases symbolOf i <;> simp

theorem arithmeticOverflows_iff {i : Instr W} :
    arithmeticOverflows i s = true ↔
      i = .add ∧ overflows (exactSum s) W.xlen = true ∨ i = .sub ∧ overflows (exactDiff s) W.xlen = true := by
  cases i <;> simp [arithmeticOverflows]

/-! The one condition a cycle can meet, and the one a stop of a RUN reports (R112). -/

/-- The condition that an instruction fetched from a slot can meet, if any. -/
def instrCondition : Instr W → Option Condition
  | .empty => some .emptySlot
  | .reserved _ => some .reservedOpcode
  | .dec _ | .lda _ | .str _ => some .outOfRangeAddress
  | .add | .sub => some .overflow
  | .ldi _ | .xch | .jmp _ | .jzs _ | .jvs _ | .hlt => none

/-- The condition that the cycle that runs in a state can meet, if any. -/
def cycleCondition (s : State W) (sz : Sizes := Config.sizes) : Option Condition :=
  if inFetchRange s.pc sz then instrCondition (decode (fetch s sz)) else some .fetchOutOfRange

/-- The condition that a stop of a RUN reports, if any. -/
def RunStop.condition : RunStop → Option Condition
  | .halted => none
  | .fetchBound => some .fetchOutOfRange
  | .runaway => some .runawayProgram

theorem instrCondition_of_resolvesOutOfRange {i : Instr W} (h : resolvesOutOfRange i s sz = true) :
    instrCondition i = some .outOfRangeAddress := by
  cases i with
  | dec | lda | str => rfl
  | empty | ldi | xch | add | sub | jmp | jzs | jvs | hlt | reserved => cases h

theorem instrCondition_of_arithmeticOverflows {i : Instr W} (h : arithmeticOverflows i s = true) :
    instrCondition i = some .overflow := by
  rcases arithmeticOverflows_iff.1 h with ⟨rfl, -⟩ | ⟨rfl, -⟩ <;> rfl

/-- A fetch that meets a condition of an instruction other than the empty slot's saw a slot: outside the slots it sees
the empty word. -/
theorem cycleCondition_of_instrCondition {c : Condition} (h : instrCondition (decode (fetch s sz)) = some c)
    (hc : c ≠ .emptySlot) : cycleCondition s sz = some c := by
  cases hin : inFetchRange s.pc sz with
  | true => rw [cycleCondition, hin, if_pos rfl, h]
  | false =>
    rw [fetch_of_not_inFetchRange hin, decode_zero] at h
    exact absurd (Option.some.inj h).symm hc

theorem cycleCondition_of_meetsInCycle {c : Condition} (h : meetsInCycle s c sz = true) :
    cycleCondition s sz = some c := by
  cases c with
  | emptySlot =>
    obtain ⟨hin, hop⟩ := meetsInCycle_emptySlot_iff.1 h
    rw [cycleCondition, if_pos hin, decode_eq_empty_iff.2 hop]
    rfl
  | reservedOpcode =>
    obtain ⟨hin, hop⟩ := meetsInCycle_reservedOpcode_iff.1 h
    rw [cycleCondition, if_pos hin, decode_eq_reserved_iff.2 hop]
    rfl
  | fetchOutOfRange => rw [cycleCondition, meetsInCycle_fetchOutOfRange_iff.1 h]; rfl
  | outOfRangeAddress => exact cycleCondition_of_instrCondition (instrCondition_of_resolvesOutOfRange h) nofun
  | overflow => exact cycleCondition_of_instrCondition (instrCondition_of_arithmeticOverflows h) nofun
  | unknownOpcode | parseError | runawayProgram => cases h

theorem stopsRun_iff {c : Condition} :
    stopsRun s c sz = true ↔ ∃ r, runStop s sz = some r ∧ r.condition = some c := by
  constructor
  · intro h
    cases c with
    | fetchOutOfRange => exact ⟨.fetchBound, eq_of_beq h, rfl⟩
    | runawayProgram => exact ⟨.runaway, eq_of_beq h, rfl⟩
    | unknownOpcode | parseError | emptySlot | reservedOpcode | outOfRangeAddress | overflow => cases h
  · rintro ⟨r, hr, hc⟩
    cases r with
    | halted => cases hc
    | fetchBound | runaway =>
      cases hc
      exact beq_iff_eq.2 hr

theorem meetsInCycle_unique {c d : Condition} (hc : meetsInCycle s c sz = true) (hd : meetsInCycle s d sz = true) :
    c = d :=
  Option.some.inj ((cycleCondition_of_meetsInCycle hc).symm.trans (cycleCondition_of_meetsInCycle hd))

theorem stopsRun_unique {c d : Condition} (hc : stopsRun s c sz = true) (hd : stopsRun s d sz = true) : c = d := by
  obtain ⟨r, hr, hrc⟩ := stopsRun_iff.1 hc
  obtain ⟨r', hr', hrd⟩ := stopsRun_iff.1 hd
  cases hr.symm.trans hr'
  exact Option.some.inj (hrc.symm.trans hrd)

end Sys2Proof.Machine

namespace Sys2Proof.Claims

open Sys2Proof.Machine

/-- Settles O43: a command is performed or refused, and what a step does with none at hand completes. -/
theorem noStepFaults : Obligations.NoStepFaults := fun scope s =>
  ⟨safeOutcome_stepWith scope s Config.sizes, fun h => stepWith_next_of_no_command h scope Config.sizes⟩

/-- Settles O53: each condition by its cause; a cycle meets at most its `cycleCondition`, and a RUN is stopped by at
most the condition of its `runStop`. -/
theorem conditionsExcludeEachOther : Obligations.ConditionsExcludeEachOther := by
  refine fun s => ⟨?empty, ?reserved, ?fetch, ?address, ?overflow, ?bound, ?runaway, ?noCycle, ?noStop,
    fun c d => ⟨meetsInCycle_unique, stopsRun_unique⟩⟩
  case empty => rw [meetsInCycle_emptySlot_iff, inFetchRange_iff_inSlots, opField_toNat]
  case reserved => rw [meetsInCycle_reservedOpcode_iff, inFetchRange_iff_inSlots, opField_toNat]
  case fetch => exact meetsInCycle_fetchOutOfRange_iff.trans inFetchRange_eq_false_iff
  case address =>
    simp only [← inDataRange_iff]
    exact resolvesOutOfRange_iff
  case overflow =>
    simp only [← overflows_iff]
    exact arithmeticOverflows_iff
  case bound => rw [stopsRun, beq_iff_eq, runStop_eq_fetchBound_iff, inFetchRange_eq_false_iff]
  case runaway => rw [stopsRun, beq_iff_eq, runStop_eq_runaway_iff, inFetchRange_iff_inSlots]
  case noCycle => simp [meetsInCycle]
  case noStop => simp [stopsRun]

end Sys2Proof.Claims
end

