-- ==== Sys2Proof/Proofs/ResetAndLoad.lean ====
section
/-!
SUPPORT. The program-load interface (70_reset_and_hazards.md R122 to R124): when its commands are accepted, the state
each leaves, and what the slots read after IMEM_WRITE.
-/
namespace Sys2Proof.Machine

open Sys2Proof.Claims

variable {W : Widths} {s : State W}

/-! Acceptance (R95, R124). -/

theorem accepts_loadBegin (hbusy : s.busy = false) (hload : s.loading = false) : accepts s .loadBegin = true := by
  rw [accepts, hbusy, hload]
  rfl

theorem accepts_imemWrite (hbusy : s.busy = false) (hload : s.loading = true) (a : Int) (w : IWord W) :
    accepts s (.imemWrite a w) = true := by
  rw [accepts, hbusy, hload]
  rfl

theorem accepts_loadEnd (hbusy : s.busy = false) (hload : s.loading = true) (status : LoadStatus) :
    accepts s (.loadEnd status) = true := by
  rw [accepts, hbusy, hload]
  rfl

/-! The state each command leaves (R105, R123, R124). -/

theorem loadBegin_eq (scope : CeilingScope) (s : State W) : loadBegin scope s =
    { (State.initial : State W) with
      execCount := if scope = .load then 0 else s.execCount, loading := true, host := s.host } := by
  cases scope <;> rfl

/-- The slots after IMEM_WRITE: in the instruction range no address is negative, so none is taken for slot 0. -/
theorem imemWrite_read {sz : Sizes} (h : Memory.wf s.imem) (a : Int) (w : IWord W) (k : Nat) :
    Memory.read (imemWrite a w s sz).imem k =
      if (k : Int) = a ∧ inInstrRange a sz = true then w else Memory.read s.imem k := by
  cases hr : inInstrRange a sz with
  | true =>
    have hslot : k = a.toNat ↔ (k : Int) = a := by
      have := (inInstrRange_iff_at.1 hr).1
      omega
    rw [imemWrite, if_pos hr, State.setImem_imem, Memory.read_write h]
    simp only [hslot, and_true]
  | false =>
    rw [imemWrite, hr, if_neg Bool.false_ne_true, if_neg fun hk => Bool.false_ne_true hk.2]

end Sys2Proof.Machine

namespace Sys2Proof.Claims

open Sys2Proof.Machine

/-- Settles O44: RESET is accepted in every state, and `powerOn` keeps of it the host's inputs alone. -/
theorem resetSetsEveryPieceOfState : Obligations.ResetSetsEveryPieceOfState :=
  ⟨fun scope _ hc => stepWith_of_accepted hc rfl scope _, rfl, fun _ => ⟨decode_zero, rfl⟩⟩

/-- Settles O45: an idle block accepts LOAD_BEGIN, and `loadBegin_eq` is the state it leaves. -/
theorem loadBeginMakesAFreshMachine : Obligations.LoadBeginMakesAFreshMachine := by
  intro scope s hc hbusy hload
  rw [stepWith_of_accepted hc (accepts_loadBegin hbusy hload), perform, loadBegin_eq]
  rfl

/-- Settles O46: IMEM_WRITE sets IMEM alone, and its slots read by `imemWrite_read`; LOAD_END clears `loading` alone. -/
theorem loadPortWritesSlots : Obligations.LoadPortWritesSlots := by
  refine fun scope s hbusy hload hm => ⟨fun a w hc => ?write, fun status hc => ?done⟩
  case write =>
    refine ⟨_, stepWith_of_accepted hc (accepts_imemWrite hbusy hload a w) scope _,
      imemWrite_eq_setImem a w (taken s) _, fun k => ?_⟩
    have hrange : (k : Int) = a ∧ inInstrRange a = true ↔ (k : Int) = a ∧ a ≤ 127 := by
      rw [inInstrRange_iff]
      omega
    rw [imemWrite_read (s := taken s) hm]
    simp only [hrange]
    rfl
  case done => exact stepWith_of_accepted hc (accepts_loadEnd hbusy hload status) scope _

end Sys2Proof.Claims
end
